-- ==== Sys2Proof/Word.lean ====
section
/-! DEFINITION. The machine's word types (00_scope.md R5, R6): a cell is 16 bits; a byte occurs only in
the program binary. -/

namespace Sys2Proof

/-- A cell value, 0..65535: `CELL_BITS = 16` (R5). Memory cells, registers, stack entries, queue
elements and the pc all have this width (90_conflicts.md C1). -/
abbrev Word := BitVec 16

/-- A byte of the program binary (R41, R203). No instruction sees one. -/
abbrev Byte := BitVec 8

end Sys2Proof
end

