-- ==== Sys2Proof/Config.lean ====
section
/-! DEFINITION. The implementation parameters of 00_scope.md R5, the fault causes of
60_exceptions.md R171 (one parameter is a function of them), and the spec's two open parameters as
opaque constants. -/

namespace Sys2Proof

/-- The fault causes of 60_exceptions.md R171, each with its recorded value. -/
inductive Cause where
  /-- Cause 1, raised by stage 4 of `Step`; records the pc. -/
  | malformedInstruction (pc : Word)
  /-- Cause 2, raised by `Set`; records the destination word. -/
  | illegalRegisterTarget (dst : Word)
  /-- Cause 3, raised by `Pop`. -/
  | stackUnderflow
  /-- Cause 4, raised by `Out`; records the resolved value. -/
  | unconvertibleOutput (v : Word)
  /-- Cause 5, raised by `Unknown`; records the opcode word. -/
  | unknownOpcode (raw : Word)
  /-- Cause 6, raised by every instruction with a source operand; records the operand word. -/
  | invalidOperand (w : Word)
  /-- Cause 7, raised for a destination word or an effective address past the array; records it. -/
  | addressOutOfRange (a : Word)
  /-- Cause 8, raised by `Mod`. -/
  | divideByZero
  /-- Cause 9, raised by `Push` and `Call` where the stack has a finite depth. -/
  | stackOverflow
deriving DecidableEq, Repr

namespace Config

/-- `MODULUS`: arithmetic results are reduced modulo this (R5). -/
abbrev modulus : Nat := 32768

/-- `MEM_WORDS`: general-purpose memory cells, addresses 0..32767 (R5). -/
abbrev memWords : Nat := 32768

/-- `NUM_REGS` (R5). -/
abbrev numRegs : Nat := 8

/-- `REG_BASE`: the address of register 0 (R5). -/
abbrev regBase : Nat := 32768

/-- `MEM_TOP`: the length of the flat array and the first illegal index (R5). -/
abbrev memTop : Nat := 32776

/-- `NUM_OPCODES`: defined opcodes, numbers 0..21 (R5). -/
abbrev numOpcodes : Nat := 22

/-- `MAX_ARITY`: most trailing operand words (R5). -/
abbrev maxArity : Nat := 3

/-- `STACK_DEPTH` (R5, R26): a natural number, or `none` for unbounded, which is the spec's default.
DESIGN CHOICE, unsafe for a realisation with a finite stack (log 7): the default is taken; the stack
operations take any depth. -/
def stackDepth : Option Nat := none

/-- `CHAR_CONVERTIBLE` on the values from 128 up (R154, decision D17): open, so it has no body. -/
opaque charConvertibleFrom128 : Word → Bool

/-- `ERROR_TEXT` (R5, R172, decision D13): open, so it has no body. -/
opaque errorText : Cause → String

end Config

end Sys2Proof
end

