-- ==== Sys2Proof/Syntax.lean ====
section
/-! DEFINITION. The instructions of 30_encoding.md R63: 22 opcodes and `Unknown`, one constructor
each, and the formats of R61. An operand is the 16-bit word as it stands: the decoder neither
resolves nor rejects it (40_step_protocol.md R85). -/

namespace Sys2Proof

/-- The instruction set of R63. `dst` is a destination word used raw, every other operand a source
word that is resolved; `wmem`'s `dst` is a source too (R61, 90_conflicts.md C5). -/
inductive Instr where
  | halt
  | set (dst val : Word)
  | push (val : Word)
  | pop (dst : Word)
  | eq (dst a b : Word)
  | gt (dst a b : Word)
  | jmp (addr : Word)
  | jt (test addr : Word)
  | jf (test addr : Word)
  | add (dst a b : Word)
  | mult (dst a b : Word)
  | mod (dst a b : Word)
  | and (dst a b : Word)
  | or (dst a b : Word)
  | not (dst val : Word)
  | rmem (dst src : Word)
  | wmem (dst val : Word)
  | call (addr : Word)
  | ret
  | out (val : Word)
  /-- `In`; the word itself is a keyword of Lean. -/
  | inp (dst : Word)
  | noop
  /-- An opcode word outside 0..21, carrying itself (R66, R167). -/
  | unknown (raw : Word)
deriving DecidableEq, Repr

/-- The instruction formats of R61: the arity and the role of each operand word. -/
inductive Format where
  | Z | S | D | DS | SS | DSS | U
deriving DecidableEq, Repr

end Sys2Proof
end

