-- ==== Sys2Proof/WellFormed.lean ====
section
/-! DEFINITION. Which terms of `Instr` are instructions of 30_encoding.md. Operand words range over all
16 bits (R60, R85), so the one check is the payload of `Unknown`. -/

namespace Sys2Proof

/-- `Unknown(raw)` exists for raw in 22..65535 only (R66); every other term is an instruction. -/
def Instr.wf : Instr → Bool
  | .unknown raw => decide (Config.numOpcodes ≤ raw.toNat)
  | .halt | .ret | .noop => true
  | .push _ | .jmp _ | .call _ | .out _ | .pop _ | .inp _ => true
  | .set _ _ | .not _ _ | .rmem _ _ | .jt _ _ | .jf _ _ | .wmem _ _ => true
  | .eq _ _ _ | .gt _ _ _ | .add _ _ _ | .mult _ _ _ | .mod _ _ _ | .and _ _ _ | .or _ _ _ => true

end Sys2Proof
end

