-- ==== Sys2Proof/Decode.lean ====
section
/-! DEFINITION. The decoder of 30_encoding.md and 40_step_protocol.md R85, and the encoder. The decoder
reads a window of 16-bit words, is total, and rejects by name. The opcode is the whole first word
(R60, R63, 90_conflicts.md C4). The opcode numbers are the spec's recovery (R62; DEDUCED, log 13). -/

namespace Sys2Proof

/-- Why a window holds no instruction: the two causes of decode failure (R66). -/
inductive DecodeReject where
  /-- The window is empty: the pc is outside the array. -/
  | emptyWindow
  /-- A defined opcode whose operand words the window does not hold. -/
  | truncated (opcode : Word)
deriving DecidableEq, Repr

/-- What the decoder answers: an instruction with its length in cells (R85), or a reject. -/
abbrev Decoded := Except DecodeReject (Instr × Nat)

/-- The number of trailing operand words of opcode `n` (R63), 0 for the words of `Unknown`. -/
def opcodeArity (n : Nat) : Nat :=
  [0, 2, 1, 1, 3, 3, 1, 2, 2, 3, 3, 3, 3, 3, 2, 2, 2, 1, 0, 1, 1, 0].getD n 0

/-- An instruction of arity 1, its operand delivered as it stands (R85). -/
def decodeOne (op : Word) (f : Word → Instr) : List Word → Decoded
  | a :: _ => .ok (f a, 2)
  | _ => .error (.truncated op)

/-- An instruction of arity 2. -/
def decodeTwo (op : Word) (f : Word → Word → Instr) : List Word → Decoded
  | a :: b :: _ => .ok (f a b, 3)
  | _ => .error (.truncated op)

/-- An instruction of arity 3. -/
def decodeThree (op : Word) (f : Word → Word → Word → Instr) : List Word → Decoded
  | a :: b :: c :: _ => .ok (f a b c, 4)
  | _ => .error (.truncated op)

/-- The opcode map of R63 applied to the opcode word and the words after it. -/
def decodeOpcode (w : Word) (ops : List Word) : Decoded :=
  match w.toNat with
  | 0 => .ok (.halt, 1)
  | 1 => decodeTwo w .set ops
  | 2 => decodeOne w .push ops
  | 3 => decodeOne w .pop ops
  | 4 => decodeThree w .eq ops
  | 5 => decodeThree w .gt ops
  | 6 => decodeOne w .jmp ops
  | 7 => decodeTwo w .jt ops
  | 8 => decodeTwo w .jf ops
  | 9 => decodeThree w .add ops
  | 10 => decodeThree w .mult ops
  | 11 => decodeThree w .mod ops
  | 12 => decodeThree w .and ops
  | 13 => decodeThree w .or ops
  | 14 => decodeTwo w .not ops
  | 15 => decodeTwo w .rmem ops
  | 16 => decodeTwo w .wmem ops
  | 17 => decodeOne w .call ops
  | 18 => .ok (.ret, 1)
  | 19 => decodeOne w .out ops
  | 20 => decodeOne w .inp ops
  | 21 => .ok (.noop, 1)
  | _ => .ok (.unknown w, 1)

/-- The decoder as a function of its window (R85): "given a read-only view of Memory starting at the
current pc". -/
def decodeWindow : List Word → Decoded
  | [] => .error .emptyWindow
  | w :: ops => decodeOpcode w ops

/-- The format of each instruction (R61). -/
def Instr.format : Instr → Format
  | .halt | .ret | .noop => .Z
  | .push _ | .jmp _ | .call _ | .out _ => .S
  | .pop _ | .inp _ => .D
  | .set _ _ | .not _ _ | .rmem _ _ => .DS
  | .jt _ _ | .jf _ _ | .wmem _ _ => .SS
  | .eq _ _ _ | .gt _ _ _ | .add _ _ _ | .mult _ _ _ | .mod _ _ _ | .and _ _ _ | .or _ _ _ => .DSS
  | .unknown _ => .U

/-- The length in cells, the "pc delta" (R61, R67); `Unknown` has length 1 (R66, decision D27). -/
def Format.length : Format → Nat
  | .Z | .U => 1
  | .S | .D => 2
  | .DS | .SS => 3
  | .DSS => 4

/-- The length of an instruction in cells (R67). -/
def Instr.length (i : Instr) : Nat := i.format.length

/-- The opcode word (R63). -/
def Instr.opcodeWord : Instr → Word
  | .halt => 0
  | .set _ _ => 1
  | .push _ => 2
  | .pop _ => 3
  | .eq _ _ _ => 4
  | .gt _ _ _ => 5
  | .jmp _ => 6
  | .jt _ _ => 7
  | .jf _ _ => 8
  | .add _ _ _ => 9
  | .mult _ _ _ => 10
  | .mod _ _ _ => 11
  | .and _ _ _ => 12
  | .or _ _ _ => 13
  | .not _ _ => 14
  | .rmem _ _ => 15
  | .wmem _ _ => 16
  | .call _ => 17
  | .ret => 18
  | .out _ => 19
  | .inp _ => 20
  | .noop => 21
  | .unknown raw => raw

/-- The operand words in encoding order (R60). -/
def Instr.operandWords : Instr → List Word
  | .halt | .ret | .noop | .unknown _ => []
  | .push v | .jmp v | .call v | .out v | .pop v | .inp v => [v]
  | .set a b | .not a b | .rmem a b | .jt a b | .jf a b | .wmem a b => [a, b]
  | .eq a b c | .gt a b c | .add a b c | .mult a b c | .mod a b c | .and a b c | .or a b c => [a, b, c]

/-- The words of an instruction (R60): the opcode word, then the operand words. -/
def encode (i : Instr) : List Word := i.opcodeWord :: i.operandWords

/-- The mnemonic, as the opcode map spells it (R63). -/
def Instr.mnemonic : Instr → String
  | .halt => "Halt"
  | .set _ _ => "Set"
  | .push _ => "Push"
  | .pop _ => "Pop"
  | .eq _ _ _ => "Eq"
  | .gt _ _ _ => "Gt"
  | .jmp _ => "Jmp"
  | .jt _ _ => "Jt"
  | .jf _ _ => "Jf"
  | .add _ _ _ => "Add"
  | .mult _ _ _ => "Mult"
  | .mod _ _ _ => "Mod"
  | .and _ _ _ => "And"
  | .or _ _ _ => "Or"
  | .not _ _ => "Not"
  | .rmem _ _ => "Rmem"
  | .wmem _ _ => "Wmem"
  | .call _ => "Call"
  | .ret => "Ret"
  | .out _ => "Out"
  | .inp _ => "In"
  | .noop => "Noop"
  | .unknown _ => "Unknown"

/-- The decoder's extra bit to the step sequencer, `is_out` (R68). -/
def Instr.isOut : Instr → Bool
  | .out _ => true
  | .halt | .ret | .noop | .unknown _ => false
  | .push _ | .jmp _ | .call _ | .pop _ | .inp _ => false
  | .set _ _ | .not _ _ | .rmem _ _ | .jt _ _ | .jf _ _ | .wmem _ _ => false
  | .eq _ _ _ | .gt _ _ _ | .add _ _ _ | .mult _ _ _ | .mod _ _ _ | .and _ _ _ | .or _ _ _ => false

/-- One row of the machine-readable opcode table (R71). -/
structure TableRow where
  mnemonic : String
  mask : Word
  pattern : Word
  length : Nat
deriving DecidableEq, Repr

/-- Whether the opcode word `w` is of row `r` (R71). -/
def TableRow.accepts (r : TableRow) (w : Word) : Bool := w &&& r.mask == r.pattern

/-- The 22 rows of the defined opcodes (R63, R71). -/
def definedRows : List TableRow :=
  [⟨"Halt", 0xFFFF, 0, 1⟩, ⟨"Set", 0xFFFF, 1, 3⟩, ⟨"Push", 0xFFFF, 2, 2⟩, ⟨"Pop", 0xFFFF, 3, 2⟩,
   ⟨"Eq", 0xFFFF, 4, 4⟩, ⟨"Gt", 0xFFFF, 5, 4⟩, ⟨"Jmp", 0xFFFF, 6, 2⟩, ⟨"Jt", 0xFFFF, 7, 3⟩,
   ⟨"Jf", 0xFFFF, 8, 3⟩, ⟨"Add", 0xFFFF, 9, 4⟩, ⟨"Mult", 0xFFFF, 10, 4⟩, ⟨"Mod", 0xFFFF, 11, 4⟩,
   ⟨"And", 0xFFFF, 12, 4⟩, ⟨"Or", 0xFFFF, 13, 4⟩, ⟨"Not", 0xFFFF, 14, 3⟩, ⟨"Rmem", 0xFFFF, 15, 3⟩,
   ⟨"Wmem", 0xFFFF, 16, 3⟩, ⟨"Call", 0xFFFF, 17, 2⟩, ⟨"Ret", 0xFFFF, 18, 1⟩, ⟨"Out", 0xFFFF, 19, 2⟩,
   ⟨"In", 0xFFFF, 20, 2⟩, ⟨"Noop", 0xFFFF, 21, 1⟩]

/-- The 13 rows that tile the `Unknown` space 22..65535 (R71). -/
def unknownRows : List TableRow :=
  [⟨"Unknown", 0xFFFE, 0x0016, 1⟩, ⟨"Unknown", 0xFFF8, 0x0018, 1⟩, ⟨"Unknown", 0xFFE0, 0x0020, 1⟩,
   ⟨"Unknown", 0xFFC0, 0x0040, 1⟩, ⟨"Unknown", 0xFF80, 0x0080, 1⟩, ⟨"Unknown", 0xFF00, 0x0100, 1⟩,
   ⟨"Unknown", 0xFE00, 0x0200, 1⟩, ⟨"Unknown", 0xFC00, 0x0400, 1⟩, ⟨"Unknown", 0xF800, 0x0800, 1⟩,
   ⟨"Unknown", 0xF000, 0x1000, 1⟩, ⟨"Unknown", 0xE000, 0x2000, 1⟩, ⟨"Unknown", 0xC000, 0x4000, 1⟩,
   ⟨"Unknown", 0x8000, 0x8000, 1⟩]

/-- The 35 rows of `opcode_table.json` (R71). -/
def opcodeTable : List TableRow := definedRows ++ unknownRows

/-- The four words of an instruction whose bits are `w`, bit 0 the least significant bit of the first
word; every bit from `nbits` up is 0 (DESIGN CHOICE, safe: log 9). Four words is the longest instruction. -/
def tableWords (nbits w : Nat) : List Word :=
  let v := w % 2 ^ nbits
  [BitVec.ofNat 16 v, BitVec.ofNat 16 (v / 2 ^ 16), BitVec.ofNat 16 (v / 2 ^ 32), BitVec.ofNat 16 (v / 2 ^ 48)]

/-- The instruction the decoder reads from an instruction whose bits are `w`. -/
def decodeTableWord (nbits w : Nat) : Option Instr :=
  match decodeWindow (tableWords nbits w) with
  | .ok (i, _) => some i
  | .error _ => none

end Sys2Proof
end

