-- ==== Sys2Proof/Machine/State.lean ====
section
/-! DEFINITION. The whole state of the block (10_state.md R20): MEM with the eight registers in it, pc,
STACK, INQ, OUTBUF and run_state, as plain data; its value after construction (R35); the reasons a step
or a host operation can end without a next state. -/

namespace Sys2Proof.Machine

/-- A listed cell of MEM: its index and its 16-bit value. The smallest addressable unit is the cell;
"The byte is not an addressable unit anywhere inside the machine" (R40; DESIGN CHOICE, safe: log 1). -/
abbrev MemCell := Nat × Word

/-- MEM as a sparse list of cells. An unlisted cell holds 0, the value construction leaves (R35, R43). -/
abbrev Memory := List MemCell

/-- The canonical form: indices strictly rising, every index in the array (R21), no cell listed that
holds 0. Equal memories are then equal lists. -/
abbrev Memory.wf (m : Memory) : Prop :=
  m.Pairwise (fun c d => c.1 < d.1) ∧ ∀ c ∈ m, c.1 < Config.memTop ∧ c.2 ≠ 0

/-- The run-state, the block's only status register (R31). -/
inductive RunState where
  /-- "mid-execution, caller should step again". -/
  | cont
  /-- "accumulated console text ready to display". -/
  | bufferedOutput (text : List Word)
  /-- "blocked until caller supplies input". -/
  | inputNeeded
  /-- "terminated normally". -/
  | halt
  /-- "terminated abnormally", with its cause (R171). -/
  | error (cause : Cause)
deriving DecidableEq, Repr

/-- The six components of R20. -/
structure State where
  /-- MEM, 32776 cells; the registers are the cells 32768..32775 (R21, R22). -/
  mem : Memory
  /-- The index of the next instruction to decode (R24). -/
  pc : Word
  /-- STACK; the last element is the top (R7, R26). -/
  stack : List Word
  /-- INQ; the first element is the front (R7, R28). -/
  inq : List Word
  /-- OUTBUF; appended at the end (R7, R29). -/
  outbuf : List Word
  /-- run_state (R31). -/
  runState : RunState
deriving DecidableEq, Repr

/-- The state right after `Construct` of the empty program (R35, R200, R201): every cell 0, pc 0, stack
and queues empty, Continue. -/
def State.reset : State :=
  { mem := [], pc := 0, stack := [], inq := [], outbuf := [], runState := .cont }

/-- The reasons the machine can stop without a next state: there are none. Every fault of the spec is a
move of run_state to the absorbing Error state (60_exceptions.md R172, R175), which is a next state here
(DEDUCED: log 3). No constructor, so nothing raises one; safe. -/
inductive Fault where
deriving DecidableEq, Repr

/-- What the model gives no meaning. -/
inductive Refusal where
  /-- Raised by an arm of `exec` whose instruction has no meaning yet; no arm is. Safe: nothing runs. -/
  | notModelled (mnemonic : String)
  /-- Raised by `construct` for a program of more than 32768 words (R202). Safe: no machine results. -/
  | programTooLong (words : Nat)
  /-- Raised by `constructBytes` for an odd number of bytes (R203). Safe: no machine results. -/
  | oddByteCount
  /-- Raised by `supplyInput` for a character code above 65535 (R155). Safe: nothing is appended. -/
  | inputCodeTooWide (code : Nat)
deriving DecidableEq, Repr

/-- What a meaning, a step or a host operation answers. -/
abbrev Result := Host.Outcome State Fault Refusal

end Sys2Proof.Machine
end

