-- ==== Sys2Proof/Machine/Ops.lean ====
section
/-! DEFINITION. The named operations over memory, registers, pc, stack and queues (00_scope.md R7,
10_state.md), the taking of a fault (60_exceptions.md R172) and the way back from suspension
(40_step_protocol.md R82, R83). -/

namespace Sys2Proof.Machine

/-! ### Memory and registers -/

/-- The value of cell `a`: the listed value, else 0 (R35, R43). Callers check `a` against the array
first, so the value past its end is never used (log 2). -/
def Memory.read : Memory → Nat → Word
  | [], _ => 0
  | (b, v) :: m, a => if a = b then v else Memory.read m a

/-- The entry that lists `v` at `a`: none when `v` is what an unlisted cell holds. -/
def cellEntry (a : Nat) (v : Word) : Memory := if v = 0 then [] else [(a, v)]

/-- Writing cell `a` changes cell `a` only (R43), and keeps the canonical form. -/
def Memory.write (m : Memory) (a : Nat) (v : Word) : Memory :=
  m.filter (fun c => c.1 < a) ++ cellEntry a v ++ m.filter (fun c => a < c.1)

/-- The memory of a word sequence laid at the cells from `a` up (R200). -/
def imageFrom : Nat → List Word → Memory
  | _, [] => []
  | a, w :: ws => cellEntry a w ++ imageFrom (a + 1) ws

/-- Writing a word sequence to the cells from `a` up, one after another. -/
def Memory.writeList : Memory → Nat → List Word → Memory
  | m, _, [] => m
  | m, a, w :: ws => Memory.writeList (m.write a w) (a + 1) ws

/-- The first `n` cells from index `a` on, fewer where the array ends (R85). -/
def Memory.window (m : Memory) : Nat → Nat → List Word
  | _, 0 => []
  | a, n + 1 => if a < Config.memTop then m.read a :: Memory.window m (a + 1) n else []

/-- `MEM[a]` (R7). -/
def State.cell (s : State) (a : Nat) : Word := s.mem.read a

/-- `MEM[a] <- v` (R7). -/
def State.setCell (s : State) (a : Nat) (v : Word) : State := { s with mem := s.mem.write a v }

/-- Register `i`, which is the cell `32768 + i` (R22). -/
def State.reg (s : State) (i : Fin 8) : Word := s.cell (Config.regBase + i.val)

/-- `x[i] <- v`, which is `MEM[32768 + i] <- v` (R7). -/
def State.setReg (s : State) (i : Fin 8) (v : Word) : State := s.setCell (Config.regBase + i.val) v

/-- `MemRead(a, 1)` for a computed address: the cell, or AddressOutOfRange past the array (R140, R142). -/
def memRead (s : State) (a : Word) : Except Cause Word :=
  if a.toNat < Config.memTop then .ok (s.cell a.toNat) else .error (.addressOutOfRange a)

/-- `MemWrite(a, 1, v)` for a computed address (R141, R142). -/
def memWrite (s : State) (a v : Word) : Except Cause State :=
  if a.toNat < Config.memTop then .ok (s.setCell a.toNat v) else .error (.addressOutOfRange a)

/-! ### The program counter -/

/-- `pc <- t`; the target is not checked (43_control_transfer.md). -/
def State.setPc (s : State) (t : Word) : State := { s with pc := t }

/-- `next = pc + length` (R9, R25). The sum is taken in 16 bits; it cannot wrap where `i` was decoded at
the pc (R24; DESIGN CHOICE, safe: log 8). -/
def State.nextPc (s : State) (i : Instr) : Word := s.pc + BitVec.ofNat 16 i.length

/-- `pc <- next`. -/
def State.advance (s : State) (i : Instr) : State := s.setPc (s.nextPc i)

/-! ### Stack and queues -/

/-- `Push(v)` on a stack of depth `depth`, `none` being unbounded (R27). -/
def pushStack (depth : Option Nat) (s : State) (v : Word) : Except Cause State :=
  if depth = some s.stack.length then .error .stackOverflow else .ok { s with stack := s.stack ++ [v] }

/-- `Pop()` (R27): the last element and the state without it, or `none` where there is none; the caller
says what that means. -/
def popStack (s : State) : Option (Word × State) :=
  match s.stack.getLast? with
  | none => none
  | some v => some (v, { s with stack := s.stack.dropLast })

/-- The front of INQ and the state without it, or `none` (R28, R151). -/
def popInput (s : State) : Option (Word × State) :=
  match s.inq with
  | [] => none
  | c :: rest => some (c, { s with inq := rest })

/-- `OUTBUF <- OUTBUF ++ [v]` (R29, R150). -/
def State.appendOutput (s : State) (v : Word) : State := { s with outbuf := s.outbuf ++ [v] }

/-! ### The run-state -/

/-- `run_state <- r`. -/
def State.setRunState (s : State) (r : RunState) : State := { s with runState := r }

/-- `raise Cause(info)` (R8, R172): run_state moves to Error, and nothing else changes: no saved pc, no
vector, no handler (R175). This is the whole of taking an exception. -/
def raise (c : Cause) (s : State) : Result := .next (s.setRunState (.error c))

/-- Back to Continue from a suspending state (R82, R83). There is no return from a fault (R176): no
operation leaves Error or Halt but a new construction. -/
def resume (s : State) : State := s.setRunState .cont

/-- The end of stage 6: either all writes are made, or the first failing test raises its fault over the
state the instruction started from, with no write made (R8, R91). -/
def finish (s : State) : Except Cause State → Result
  | .ok t => .next t
  | .error c => raise c s

/-- The code of a fault cause (R171). -/
def Cause.code : Cause → Nat
  | .malformedInstruction _ => 1
  | .illegalRegisterTarget _ => 2
  | .stackUnderflow => 3
  | .unconvertibleOutput _ => 4
  | .unknownOpcode _ => 5
  | .invalidOperand _ => 6
  | .addressOutOfRange _ => 7
  | .divideByZero => 8
  | .stackOverflow => 9

/-- The value a fault records (R171). -/
def Cause.recorded : Cause → Option Word
  | .malformedInstruction v | .illegalRegisterTarget v | .unconvertibleOutput v | .unknownOpcode v
  | .invalidOperand v | .addressOutOfRange v => some v
  | .stackUnderflow | .divideByZero | .stackOverflow => none

/-- The message of the Error state, an open function of the cause (R31, R172). -/
def RunState.message : RunState → Option String
  | .error c => some (Config.errorText c)
  | .cont | .bufferedOutput _ | .inputNeeded | .halt => none

end Sys2Proof.Machine
end

