-- ==== Sys2Proof/Machine/Operands.lean ====
section
/-! DEFINITION. The operand forms: the classes of a source word (30_encoding.md R64), Resolve
(40_step_protocol.md R88), the destination checks (R89, R90) and the character check
(46_console_io.md R154). -/

namespace Sys2Proof.Machine

/-- The three classes of a source operand word (R64). -/
inductive OperandClass where
  | literal (v : Word)
  | register (i : Fin 8)
  | invalid
deriving DecidableEq, Repr

/-- The class depends on the word alone, by two unsigned comparisons; a register number is `w[2:0]`
(R64). -/
def classify (w : Word) : OperandClass :=
  if w.toNat < Config.regBase then .literal w
  else if w.toNat < Config.memTop then .register (w.extractLsb' 0 3).toFin
  else .invalid

/-- `Resolve(w)` (R88): a literal is itself, a register reference the whole 16-bit contents of its cell,
and any other word raises InvalidOperand (decision D2). -/
def resolve (s : State) (w : Word) : Except Cause Word :=
  match classify w with
  | .literal v => .ok v
  | .register i => .ok (s.reg i)
  | .invalid => .error (.invalidOperand w)

/-- `CheckDst(d)` (R89, decision D3). -/
def checkDst (d : Word) : Except Cause Unit :=
  if d.toNat < Config.memTop then .ok () else .error (.addressOutOfRange d)

/-- `CheckReg(d)`, for `Set` (R90). -/
def checkReg (d : Word) : Except Cause Unit :=
  if Config.regBase ≤ d.toNat ∧ d.toNat < Config.memTop then .ok () else .error (.illegalRegisterTarget d)

/-- `CHAR_CONVERTIBLE(v)` (R154): true on 0..127, open from 128 up (decision D17; log 5). -/
def charConvertible (v : Word) : Bool := decide (v.toNat < 128) || Config.charConvertibleFrom128 v

end Sys2Proof.Machine
end

