-- ==== Sys2Proof/Machine/Alu.lean ====
section
/-! DEFINITION. What the ALU and the comparator share: the arithmetic laws of 44_arithmetic_logic.md R130
on exact natural numbers, and the one shape of every format-DSS instruction. -/

namespace Sys2Proof.Machine

/-- "Arithmetic results are taken modulo 32768": the reduction of an exact result (R130). -/
def reduce (n : Nat) : Word := BitVec.ofNat 16 (n % Config.modulus)

/-- The exact sum, reduced (R131). -/
def aluAdd (va vb : Word) : Word := reduce (va.toNat + vb.toNat)

/-- The exact product, reduced (R132). -/
def aluMult (va vb : Word) : Word := reduce (va.toNat * vb.toNat)

/-- The remainder of natural-number division, not reduced further; a zero divisor is a fault (R133,
decision D5). -/
def aluMod (va vb : Word) : Except Cause Word :=
  if vb = 0 then .error .divideByZero else .ok (BitVec.ofNat 16 (va.toNat % vb.toNat))

/-- Bitwise and on 16 bits, reduced (R134). -/
def aluAnd (va vb : Word) : Word := reduce (va &&& vb).toNat

/-- Bitwise or on 16 bits, reduced (R135). -/
def aluOr (va vb : Word) : Word := reduce (va ||| vb).toNat

/-- The complement over the 16-bit cell, reduced (R136). -/
def aluNot (v : Word) : Word := reduce (65535 - v.toNat)

/-- The shape of a format-DSS instruction `i` (R91): the destination check, the sources left to right,
the unit `f`, then the write and `next`. Sources are read before the destination is written. -/
def binary (i : Instr) (f : Word → Word → Except Cause Word) (dst a b : Word) (s : State) : Result :=
  finish s do
    checkDst dst
    let va ← resolve s a
    let vb ← resolve s b
    let v ← f va vb
    pure ((s.setCell dst.toNat v).advance i)

end Sys2Proof.Machine
end

