-- ==== Sys2Proof/Machine/ArithmeticLogic.lean ====
section
/-! DEFINITION. Add, Mult, Mod, And, Or, Not (44_arithmetic_logic.md R131 to R136). -/

namespace Sys2Proof.Machine

/-- `Add dst, a, b` (R131). -/
def execAdd (dst a b : Word) (s : State) : Result :=
  binary (.add dst a b) (fun va vb => .ok (aluAdd va vb)) dst a b s

/-- `Mult dst, a, b` (R132). -/
def execMult (dst a b : Word) (s : State) : Result :=
  binary (.mult dst a b) (fun va vb => .ok (aluMult va vb)) dst a b s

/-- `Mod dst, a, b` (R133). -/
def execMod (dst a b : Word) (s : State) : Result :=
  binary (.mod dst a b) aluMod dst a b s

/-- `And dst, a, b` (R134). -/
def execAnd (dst a b : Word) (s : State) : Result :=
  binary (.and dst a b) (fun va vb => .ok (aluAnd va vb)) dst a b s

/-- `Or dst, a, b` (R135). -/
def execOr (dst a b : Word) (s : State) : Result :=
  binary (.or dst a b) (fun va vb => .ok (aluOr va vb)) dst a b s

/-- `Not dst, val` (R136). -/
def execNot (dst val : Word) (s : State) : Result :=
  finish s do
    checkDst dst
    let v ← resolve s val
    pure ((s.setCell dst.toNat (aluNot v)).advance (.not dst val))

end Sys2Proof.Machine
end

