-- ==== Sys2Proof/Machine/Flags.lean ====
section
/-! DEFINITION. "The machine has no status flags, condition codes or predicates" (10_state.md R30): there
is no flag to compute. What stands in their place is here: the data value a comparison writes, and the
zero test of the conditional jumps. -/

namespace Sys2Proof.Machine

/-- A comparison's result as a data value, 1 or 0 (R30, R110, R111). -/
def boolWord (b : Bool) : Word := if b then 1 else 0

/-- `va = vb` on the full 16-bit values (R110). -/
def compareEq (va vb : Word) : Word := boolWord (decide (va = vb))

/-- `va > vb`, a comparison of natural numbers (R111). -/
def compareGt (va vb : Word) : Word := boolWord (decide (vb.toNat < va.toNat))

/-- The test of `Jt` and `Jf`, on the full 16-bit value (R121, R122). -/
def isZero (c : Word) : Bool := decide (c = 0)

end Sys2Proof.Machine
end

