-- ==== Sys2Proof/Machine/Compare.lean ====
section
/-! DEFINITION. Eq and Gt (42_compare.md R110, R111). -/

namespace Sys2Proof.Machine

/-- `Eq dst, a, b` (R110). -/
def execEq (dst a b : Word) (s : State) : Result :=
  binary (.eq dst a b) (fun va vb => .ok (compareEq va vb)) dst a b s

/-- `Gt dst, a, b` (R111). -/
def execGt (dst a b : Word) (s : State) : Result :=
  binary (.gt dst a b) (fun va vb => .ok (compareGt va vb)) dst a b s

end Sys2Proof.Machine
end

