-- ==== Sys2Proof/Machine/ConsoleIo.lean ====
section
/-! DEFINITION. Out and In (46_console_io.md R150, R151). -/

namespace Sys2Proof.Machine

/-- `Out val` (R150): the code is the whole resolved value. -/
def execOut (val : Word) (s : State) : Result :=
  finish s do
    let v ← resolve s val
    if charConvertible v then pure ((s.appendOutput v).advance (.out val))
    else throw (.unconvertibleOutput v)

/-- `In dst` (R151): with an empty queue it suspends and leaves pc; a bad destination faults first. -/
def execInp (dst : Word) (s : State) : Result :=
  finish s do
    checkDst dst
    match popInput s with
    | none => pure (s.setRunState .inputNeeded)
    | some (c, t) => pure ((t.setCell dst.toNat c).advance (.inp dst))

end Sys2Proof.Machine
end

