-- ==== Sys2Proof/Machine/ControlTransfer.lean ====
section
/-! DEFINITION. Jmp, Jt, Jf, Call, Ret (43_control_transfer.md R120 to R124). -/

namespace Sys2Proof.Machine

/-- `Jmp addr` (R120). -/
def execJmp (addr : Word) (s : State) : Result :=
  finish s do
    let t ← resolve s addr
    pure (s.setPc t)

/-- `Jt test, addr` (R121): the target is resolved only when the jump is taken (decision D12). -/
def execJt (test addr : Word) (s : State) : Result :=
  finish s do
    let c ← resolve s test
    if isZero c then pure (s.advance (.jt test addr))
    else
      let t ← resolve s addr
      pure (s.setPc t)

/-- `Jf test, addr` (R122). -/
def execJf (test addr : Word) (s : State) : Result :=
  finish s do
    let c ← resolve s test
    if isZero c then
      let t ← resolve s addr
      pure (s.setPc t)
    else pure (s.advance (.jf test addr))

/-- `Call addr` (R123) on a stack of the given depth: the target is resolved before the push. -/
def callTarget (depth : Option Nat) (addr : Word) (s : State) : Result :=
  finish s do
    let t ← resolve s addr
    let u ← pushStack depth s (s.nextPc (.call addr))
    pure (u.setPc t)

/-- `Call addr` (R123). -/
def execCall (addr : Word) (s : State) : Result := callTarget Config.stackDepth addr s

/-- `Ret` (R124): an empty stack is normal termination, not a fault. -/
def execRet (s : State) : Result :=
  match popStack s with
  | none => .next (s.setRunState .halt)
  | some (t, u) => .next (u.setPc t)

end Sys2Proof.Machine
end

