-- ==== Sys2Proof/Machine/DataMovement.lean ====
section
/-! DEFINITION. Set, Push, Pop (41_data_movement.md R100 to R102). -/

namespace Sys2Proof.Machine

/-- `Set dst, val` (R100): the value is copied whole. -/
def execSet (dst val : Word) (s : State) : Result :=
  finish s do
    checkReg dst
    let v ← resolve s val
    pure ((s.setCell dst.toNat v).advance (.set dst val))

/-- `Push val` (R101) on a stack of the given depth. -/
def pushValue (depth : Option Nat) (val : Word) (s : State) : Result :=
  finish s do
    let v ← resolve s val
    let t ← pushStack depth s v
    pure (t.advance (.push val))

/-- `Push val` (R101). -/
def execPush (val : Word) (s : State) : Result := pushValue Config.stackDepth val s

/-- `Pop dst` (R102): an empty stack is a fault. -/
def execPop (dst : Word) (s : State) : Result :=
  finish s do
    checkDst dst
    match popStack s with
    | none => throw .stackUnderflow
    | some (v, t) => pure ((t.setCell dst.toNat v).advance (.pop dst))

end Sys2Proof.Machine
end

