-- ==== Sys2Proof/Machine/MemoryAccess.lean ====
section
/-! DEFINITION. Rmem and Wmem (45_memory_access.md R140 to R142). -/

namespace Sys2Proof.Machine

/-- `Rmem dst, src` (R140): the address is the resolved operand, register cells included. -/
def execRmem (dst src : Word) (s : State) : Result :=
  finish s do
    checkDst dst
    let e ← resolve s src
    let v ← memRead s e
    pure ((s.setCell dst.toNat v).advance (.rmem dst src))

/-- `Wmem dst, val` (R141): the operand called `dst` is resolved and gives the address. -/
def execWmem (dst val : Word) (s : State) : Result :=
  finish s do
    let e ← resolve s dst
    let v ← resolve s val
    let t ← memWrite s e v
    pure (t.advance (.wmem dst val))

end Sys2Proof.Machine
end

