-- ==== Sys2Proof/Machine/System.lean ====
section
/-! DEFINITION. Halt, Noop, Unknown (47_system.md R165 to R167). -/

namespace Sys2Proof.Machine

/-- `Halt` (R165): pc unchanged. -/
def execHalt (s : State) : Result := .next (s.setRunState .halt)

/-- `Noop` (R166). -/
def execNoop (s : State) : Result := .next (s.advance .noop)

/-- `Unknown(raw)` (R167): always the fault UnknownOpcode. -/
def execUnknown (raw : Word) (s : State) : Result := raise (.unknownOpcode raw) s

end Sys2Proof.Machine
end

