-- ==== Sys2Proof/Machine/Dispatch.lean ====
section
/-! DEFINITION. Stage 6 of Step (40_step_protocol.md R87): one arm per instruction. -/

namespace Sys2Proof.Machine

def exec (i : Instr) (s : State) : Host.Outcome State Fault Refusal :=
  match i with
  | .halt => Sys2Proof.Machine.execHalt s
  | .set dst val => Sys2Proof.Machine.execSet dst val s
  | .push val => Sys2Proof.Machine.execPush val s
  | .pop dst => Sys2Proof.Machine.execPop dst s
  | .eq dst a b => Sys2Proof.Machine.execEq dst a b s
  | .gt dst a b => Sys2Proof.Machine.execGt dst a b s
  | .jmp addr => Sys2Proof.Machine.execJmp addr s
  | .jt test addr => Sys2Proof.Machine.execJt test addr s
  | .jf test addr => Sys2Proof.Machine.execJf test addr s
  | .add dst a b => Sys2Proof.Machine.execAdd dst a b s
  | .mult dst a b => Sys2Proof.Machine.execMult dst a b s
  | .mod dst a b => Sys2Proof.Machine.execMod dst a b s
  | .and dst a b => Sys2Proof.Machine.execAnd dst a b s
  | .or dst a b => Sys2Proof.Machine.execOr dst a b s
  | .not dst val => Sys2Proof.Machine.execNot dst val s
  | .rmem dst src => Sys2Proof.Machine.execRmem dst src s
  | .wmem dst val => Sys2Proof.Machine.execWmem dst val s
  | .call addr => Sys2Proof.Machine.execCall addr s
  | .ret => Sys2Proof.Machine.execRet s
  | .out val => Sys2Proof.Machine.execOut val s
  | .inp dst => Sys2Proof.Machine.execInp dst s
  | .noop => Sys2Proof.Machine.execNoop s
  | .unknown raw => Sys2Proof.Machine.execUnknown raw s

end Sys2Proof.Machine
end

