-- ==== Sys2Proof/Machine/Stages.lean ====
section
/-! DEFINITION. The stages of the single-step operation (40_step_protocol.md R81 to R87), and the placing
of an instruction where the next step fetches. `Step` itself (R92) is in Step.lean. -/

namespace Sys2Proof.Machine

/-- `Decode(p)` (R85): the decoder on the window that begins at cell `p`. An instruction is at most four
cells, so the first four cells of the window decide (DEDUCED, safe: log 10). -/
def decodeAt (m : Memory) (p : Word) : Decoded :=
  decodeWindow (m.window p.toNat (1 + Config.maxArity))

/-- Stages 1 to 3 (R81, R82, R83): `none` when the step ends at once with nothing changed, else the
state that goes on to stage 4, in Continue. -/
def beginStep (s : State) : Option State :=
  match s.runState with
  | .halt => none
  | .error _ => none
  | .inputNeeded => if s.inq.isEmpty then none else some (resume s)
  | .bufferedOutput _ => some (resume s)
  | .cont => some s

/-- Stage 5's effect (R86): the whole buffer becomes the text, and nothing executes. -/
def drain (s : State) : State := { s with outbuf := [], runState := .bufferedOutput s.outbuf }

/-- Stages 5 and 6 (R86, R87). -/
def drainOrExec (i : Instr) (s : State) : Result :=
  if !i.isOut && !s.outbuf.isEmpty then .next (drain s) else exec i s

/-- Stages 4 to 6 (R84, R86, R87): a decode failure faults before the drain. -/
def fetchAndRun (s : State) : Result :=
  match decodeAt s.mem s.pc with
  | .error _ => raise (.malformedInstruction s.pc) s
  | .ok (i, _) => drainOrExec i s

/-- The whole step (R92). -/
def stepStages (s : State) : Result :=
  match beginStep s with
  | none => .next s
  | some t => fetchAndRun t

/-- Where `placeWords` puts an instruction: at the pc, or at cell 0 (with the pc moved there) where four
cells do not fit (DESIGN CHOICE, safe: log 9). -/
def placePc (s : State) : Word := if s.pc.toNat + 4 ≤ Config.memTop then s.pc else 0

/-- The state with `ws` stored where the very next step fetches: Continue, and no output pending that
stage 5 would drain first (log 9). -/
def placeWords (s : State) (ws : List Word) : State :=
  { s with
    mem := s.mem.writeList (placePc s).toNat ws
    pc := placePc s
    outbuf := if ws.head? = some 19 then s.outbuf else []
    runState := .cont }

end Sys2Proof.Machine
end

