-- ==== Sys2Proof/Machine/Step.lean ====
section
/-! DEFINITION. `Step()` (40_step_protocol.md R80, R92). The value it returns to the host is the
run-state of the next state (R80; log 4). -/

namespace Sys2Proof.Machine

/-- `Step()` (R92), the sole externally driven primitive. -/
def step (s : State) : Host.Outcome State Fault Refusal := stepStages s

/-- The state with the table's instruction stored where `step` fetches its next instruction; it stands
for the load that `Construct` makes (R200; log 9). -/
def State.withFetchWord (s : State) (nbits w : Nat) : State := placeWords s (tableWords nbits w)

end Sys2Proof.Machine
end

