-- ==== Sys2Proof/Machine/HostOps.lean ====
section
/-! DEFINITION. The host operations (00_scope.md R10) other than Step: Construct (70_reset_and_hazards.md
R200 to R205), Run (40_step_protocol.md R93), SupplyInput, FlushOutput, ReadRegisters
(46_console_io.md R155 to R157). -/

namespace Sys2Proof.Machine

/-- `Construct(program)` (R200): a fresh machine that keeps nothing of any other (R205); a program of
more than 32768 words is refused (R202). -/
def construct (program : List Word) : Result :=
  if program.length ≤ Config.memWords then .next { State.reset with mem := imageFrom 0 program }
  else .refused (.programTooLong program.length)

/-- The program binary as words, low byte first; an odd number of bytes has none (R41, R203). -/
def wordsOfBytes : List Byte → Option (List Word)
  | [] => some []
  | [_] => none
  | lo :: hi :: rest => (wordsOfBytes rest).map fun ws => BitVec.ofNat 16 (lo.toNat + 256 * hi.toNat) :: ws

/-- `Construct` from a program binary (R203). -/
def constructBytes (bytes : List Byte) : Result :=
  match wordsOfBytes bytes with
  | none => .refused .oddByteCount
  | some ws => construct ws

/-- `SupplyInput(chars)` (R155): appended in order, in any run-state; a sequence with a code above 65535
is refused as a whole. -/
def supplyInput (codes : List Nat) (s : State) : Result :=
  match codes.find? (fun c => 65535 < c) with
  | some c => .refused (.inputCodeTooWide c)
  | none => .next { s with inq := s.inq ++ codes.map (BitVec.ofNat 16) }

/-- `FlushOutput()` (R156): the returned text and the state after. -/
def flushOutput (s : State) : List Word × State := (s.outbuf, { s with outbuf := [] })

/-- `ReadRegisters()` (R157): r0 first. -/
def readRegisters (s : State) : List Word := (List.finRange 8).map s.reg

/-- `Run()` (R93) within `n` steps: the state after the first step whose run-state is not Continue, or
`none` where all `n` steps return Continue. The bound is the model's, not the machine's (log 11). -/
def runWithin : Nat → State → Option State
  | 0, _ => none
  | n + 1, s =>
    match step s with
    | .next t => if t.runState = .cont then runWithin n t else some t
    | .fault _ => none
    | .refused _ => none

/-- `Run()` called in `s` returns, leaving `t`. -/
def RunReturns (s t : State) : Prop := ∃ n, runWithin n s = some t

/-- `Run()` called in `s` never returns (R93, 60_exceptions.md R184). -/
def RunDiverges (s : State) : Prop := ∀ n, runWithin n s = none

/-- The host operations on an existing machine. `Run` is not one of its own: it is a sequence of
`Step`s (R93). -/
inductive HostOp where
  | step
  | supplyInput (codes : List Nat)
  | flushOutput
  | readRegisters
deriving DecidableEq, Repr

/-- The transition a host operation makes (R10). -/
def hostApply : HostOp → State → Result
  | .step, s => step s
  | .supplyInput codes, s => supplyInput codes s
  | .flushOutput, s => .next (flushOutput s).2
  | .readRegisters, s => .next s

end Sys2Proof.Machine
end

