-- ==== Sys2Proof/Safety.lean ====
section
/-! DEFINITION. The terms claims are stated in: the value of a source operand, the exact change a step
makes, the invariants of 10_state.md R33, the states a host can reach, the output a run delivers, and
the classes of outcome of 60_exceptions.md R184. -/

namespace Sys2Proof.Machine

/-- The value of a source operand word below 32776, as 30_encoding.md R64 words it: itself below 32768,
else the contents of that cell. -/
def State.valueOf (s : State) (w : Word) : Word := if w.toNat < 32768 then w else s.cell w.toNat

/-- A word that names something as a source or as a raw destination: below 32776 (R64, R65). -/
abbrev InArray (w : Word) : Prop := w.toNat < 32776

/-- `t` is `s` with exactly one cell given a new value. -/
def StoresOnly (s t : State) (d : Nat) (v : Word) : Prop :=
  t.cell d = v ∧ ∀ a, a ≠ d → t.cell a = s.cell a

/-- Every cell of `t` reads as in `s`. -/
def SameCells (s t : State) : Prop := ∀ a, t.cell a = s.cell a

/-- Stack, both queues and the run-state of `t` are those of `s`. -/
def SameBesides (s t : State) : Prop :=
  t.stack = s.stack ∧ t.inq = s.inq ∧ t.outbuf = s.outbuf ∧ t.runState = s.runState

/-- An instruction of length `len` completed by writing `v` to cell `d` and advancing: the whole change
of an instruction whose one effect is its destination cell. -/
def WritesCell (s t : State) (d : Nat) (v : Word) (len : Nat) : Prop :=
  StoresOnly s t d v ∧ t.pc = s.pc + BitVec.ofNat 16 len ∧ SameBesides s t

/-- An instruction completed by moving the pc alone. -/
def MovesPc (s t : State) (target : Word) : Prop :=
  SameCells s t ∧ t.pc = target ∧ SameBesides s t

/-- `t` is `s` with run_state `Error(c)` and no other change (60_exceptions.md R172). -/
def Faulted (s t : State) (c : Cause) : Prop := t = { s with runState := .error c }

/-- The cell an instruction stores to when it completes: the raw destination word, or for `Wmem` the
first operand as `resolve` gives it (20_memory.md R46). -/
def storeTarget (i : Instr) (s : State) : Option Nat :=
  match i with
  | .set d _ | .pop d | .eq d _ _ | .gt d _ _ | .add d _ _ | .mult d _ _ | .mod d _ _ | .and d _ _
  | .or d _ _ | .not d _ | .rmem d _ | .inp d => some d.toNat
  | .wmem d _ => (resolve s d).toOption.map BitVec.toNat
  | .halt | .push _ | .jmp _ | .jt _ _ | .jf _ _ | .call _ | .ret | .out _ | .noop | .unknown _ => none

/-- Whether an instruction may change STACK (R46). -/
def usesStack : Instr → Bool
  | .push _ | .pop _ | .call _ | .ret => true
  | .halt | .noop | .unknown _ | .jmp _ | .out _ | .inp _ => false
  | .set _ _ | .not _ _ | .rmem _ _ | .jt _ _ | .jf _ _ | .wmem _ _ => false
  | .eq _ _ _ | .gt _ _ _ | .add _ _ _ | .mult _ _ _ | .mod _ _ _ | .and _ _ _ | .or _ _ _ => false

/-- Whether an instruction may take from INQ (R46). -/
def usesInput : Instr → Bool
  | .inp _ => true
  | .halt | .ret | .noop | .unknown _ | .push _ | .pop _ | .jmp _ | .call _ | .out _ => false
  | .set _ _ | .not _ _ | .rmem _ _ | .jt _ _ | .jf _ _ | .wmem _ _ => false
  | .eq _ _ _ | .gt _ _ _ | .add _ _ _ | .mult _ _ _ | .mod _ _ _ | .and _ _ _ | .or _ _ _ => false

/-- The destination word that `CheckDst` tests, for the eleven instructions it tests (R89). -/
def checkedDst : Instr → Option Word
  | .pop d | .eq d _ _ | .gt d _ _ | .add d _ _ | .mult d _ _ | .mod d _ _ | .and d _ _ | .or d _ _
  | .not d _ | .rmem d _ | .inp d => some d
  | .halt | .ret | .noop | .unknown _ | .push _ | .jmp _ | .call _ | .out _ => none
  | .set _ _ | .jt _ _ | .jf _ _ | .wmem _ _ => none

/-- The source words that are resolved on every path, in order (R68): all of them, but for the target
of a conditional jump. -/
def sourceWords : Instr → List Word
  | .set _ v | .push v | .jmp v | .not _ v | .rmem _ v | .call v | .out v => [v]
  | .eq _ a b | .gt _ a b | .add _ a b | .mult _ a b | .mod _ a b | .and _ a b | .or _ a b | .wmem a b => [a, b]
  | .jt t _ | .jf t _ => [t]
  | .halt | .pop _ | .ret | .inp _ | .noop | .unknown _ => []

/-- Whether the destination word of an instruction passes its check (R89, R90). -/
def DestinationOk (i : Instr) : Prop :=
  (∀ d, checkedDst i = some d → InArray d) ∧ ∀ d v, i = .set d v → 32768 ≤ d.toNat ∧ d.toNat < 32776

/-- A state that can run one instruction to completion in stage 6: entered in Continue (R87). -/
abbrev Running (s : State) : Prop := s.runState = .cont

/-- R33 (a): a delivered text is not empty, and nothing is buffered beside it. -/
def InvText (s : State) : Prop := ∀ t, s.runState = .bufferedOutput t → t ≠ [] ∧ s.outbuf = []

/-- R33 (b): a machine that waits for input has nothing buffered and stands at an `In` with a legal
destination. -/
def InvWaiting (s : State) : Prop :=
  s.runState = .inputNeeded → s.outbuf = [] ∧ ∃ d, decodeAt s.mem s.pc = .ok (.inp d, 2) ∧ InArray d

/-- R33 (c): every character buffered or delivered is convertible. -/
def InvChars (s : State) : Prop :=
  (∀ v ∈ s.outbuf, charConvertible v = true) ∧
    ∀ t, s.runState = .bufferedOutput t → ∀ v ∈ t, charConvertible v = true

/-- R33 (d) and the canonical form: MEM lists cells of the 32776-cell array only. -/
def InvMemory (s : State) : Prop := s.mem.wf

/-- The invariant of R33 (a) to (d). -/
structure Inv (s : State) : Prop where
  text : InvText s
  waiting : InvWaiting s
  chars : InvChars s
  memory : InvMemory s

/-- The states a host can bring the machine to: a construction, then host operations (R10, R33). -/
inductive Reachable : State → Prop where
  | construct {program s} : construct program = .next s → Reachable s
  | apply {op s t} : Reachable s → hostApply op s = .next t → Reachable t

/-- The state after a step, where it answers one. -/
def stepNext (s : State) : State :=
  match step s with
  | .next t => t
  | .fault _ => s
  | .refused _ => s

/-- The text a step hands to the host: that of BufferedOutput (R86). -/
def deliveredText (s : State) : List Word :=
  match s.runState with
  | .bufferedOutput t => t
  | .cont | .inputNeeded | .halt | .error _ => []

/-- The text `n` steps from `s` hand to the host, in order. -/
def deliveredBy : Nat → State → List Word
  | 0, _ => []
  | n + 1, s => deliveredText (stepNext s) ++ deliveredBy n (stepNext s)

/-- The state after `n` steps. -/
def stepsFrom : Nat → State → State
  | 0, s => s
  | n + 1, s => stepsFrom n (stepNext s)

/-- The character a step outputs: the resolved operand of the `Out` it executes, if it completes. -/
def emitted (s : State) : List Word :=
  match beginStep s with
  | none => []
  | some t =>
    match decodeAt t.mem t.pc with
    | .ok (.out val, _) =>
      if val.toNat < 32776 ∧ charConvertible (t.valueOf val) then [t.valueOf val] else []
    | _ => []

/-- The characters `n` steps from `s` output, in the order their `Out`s executed. -/
def emittedBy : Nat → State → List Word
  | 0, _ => []
  | n + 1, s => emitted s ++ emittedBy n (stepNext s)

/-- How a model classes a state a run has come to (60_exceptions.md R184, R182). -/
inductive Verdict where
  /-- Halt: the final state of a normal run. -/
  | completed
  /-- Error: not final; it refutes "the program runs to completion". -/
  | faulted (c : Cause)
  /-- InputNeeded with an empty queue: stuck on the host. -/
  | waitsForHost
  /-- The next step goes on. -/
  | runs
deriving DecidableEq, Repr

/-- The class of a state. -/
def verdict (s : State) : Verdict :=
  match s.runState with
  | .halt => .completed
  | .error c => .faulted c
  | .inputNeeded => if s.inq.isEmpty then .waitsForHost else .runs
  | .bufferedOutput _ => .runs
  | .cont => .runs

end Sys2Proof.Machine
end

