-- ==== Sys2Proof/Certificates/Slice0/Obligations.lean ====
section
/-! DEFINITION. The statements for the provers. A docstring names the rule or the section a statement
formalises; where a clause rests on a decision D<n> of 92_eei_decisions.md or on a log entry, it is the
spec's or the model's own choice, and the docstring says so. -/

open Sys2Proof Sys2Proof.Machine

/-! ### Encoding -/

/-- Decoding and encoding agree in both directions, for every instruction with every operand word: a
window decodes to `(i, n)` exactly when it begins with the words of the well-formed `i` and `n` is its
length (30_encoding.md sections 1, 2, 4 and 5; the opcode numbers are the spec's recovery, log 13; the
length of `Unknown` is decision D27). -/
def Obligations.DecodeEncodeAgree : Prop :=
  ∀ (ws : List Word) (i : Instr) (n : Nat),
    decodeWindow ws = .ok (i, n) ↔ i.wf = true ∧ n = i.length ∧ ∃ rest, ws = encode i ++ rest

/-- Words written out from the opcode map of 30_encoding.md section 2 decode to the instructions they
stand for, one of each family; a nonzero high byte makes another opcode word (90_conflicts.md C4). -/
def Obligations.SpecWordsDecode : Prop :=
  decodeWindow [9, 32768, 32769, 4] = .ok (.add 32768 32769 4, 4) ∧
  decodeWindow [19, 32768, 0] = .ok (.out 32768, 2) ∧
  decodeWindow [1, 32768, 65] = .ok (.set 32768 65, 3) ∧
  decodeWindow [5, 100, 7, 3] = .ok (.gt 100 7 3, 4) ∧
  decodeWindow [7, 32768, 20] = .ok (.jt 32768 20, 3) ∧
  decodeWindow [16, 32768, 32769] = .ok (.wmem 32768 32769, 3) ∧
  decodeWindow [18] = .ok (.ret, 1) ∧
  decodeWindow [0x0109, 1, 2, 3] = .ok (.unknown 265, 1)

/-- The decoder function at cell `p`, arm by arm (40_step_protocol.md section 1, `Decode`; the reading of
the window is decision D7, the `Unknown` arm decision D9): no cell at `p`, an `Unknown` word, operand
words past the array, or an instruction made of exactly the cells from `p` on. -/
def Obligations.DecodeAtReadsTheArray : Prop :=
  ∀ (m : Memory) (p : Word),
    (32776 ≤ p.toNat → decodeAt m p = .error .emptyWindow) ∧
    (p.toNat < 32776 → 22 ≤ (m.read p.toNat).toNat →
      decodeAt m p = .ok (.unknown (m.read p.toNat), 1)) ∧
    (p.toNat < 32776 → (m.read p.toNat).toNat < 22 →
      32776 ≤ p.toNat + opcodeArity (m.read p.toNat).toNat →
      decodeAt m p = .error (.truncated (m.read p.toNat))) ∧
    (p.toNat < 32776 → (m.read p.toNat).toNat < 22 →
      p.toNat + opcodeArity (m.read p.toNat).toNat < 32776 →
      ∃ i, decodeAt m p = .ok (i, 1 + opcodeArity (m.read p.toNat).toNat) ∧
        encode i = (List.range (1 + opcodeArity (m.read p.toNat).toNat)).map fun k => m.read (p.toNat + k))

/-- The model's choice of log 10: the decoder answers on the first four cells of the window what it
answers on any longer part of it, so on the whole window of 40_step_protocol.md section 1. -/
def Obligations.FourCellsDecideTheWindow : Prop :=
  ∀ (m : Memory) (p k : Nat), decodeWindow (m.window p (4 + k)) = decodeWindow (m.window p 4)

/-- The 35 rows of the machine-readable table are disjoint and cover all opcode words, and the row of a
word names the instruction it decodes to, with its length (30_encoding.md section 8). -/
def Obligations.TableRowsTileTheOpcodeWords : Prop :=
  ∀ w : Word, ∃ r, opcodeTable.filter (fun row => row.accepts w) = [r] ∧
    ∀ ops i n, decodeWindow (w :: ops) = .ok (i, n) → i.mnemonic = r.mnemonic ∧ n = r.length

/-- The model's placing of a table word (log 9): from every state, the very next step executes the
instruction the table's word decodes to, and stack, input and the cells past the placed words are kept. -/
def Obligations.PlacedTableWordRuns : Prop :=
  ∀ (s : State) (nbits w : Nat), ∃ i, decodeTableWord nbits w = some i ∧
    (∃ rest, tableWords nbits w = encode i ++ rest) ∧
    step (s.withFetchWord nbits w) = exec i (s.withFetchWord nbits w) ∧
    (s.withFetchWord nbits w).stack = s.stack ∧ (s.withFetchWord nbits w).inq = s.inq ∧
    ∀ a, (a < (placePc s).toNat ∨ (placePc s).toNat + 4 ≤ a) →
      (s.withFetchWord nbits w).cell a = s.cell a

/-! ### The step protocol -/

/-- R81: "If current RunState is `Halt` or `Error`, return it unchanged (absorbing)." Nothing else
changes. -/
def Obligations.HaltAndErrorAbsorbSteps : Prop :=
  ∀ s : State, (s.runState = .halt ∨ ∃ c, s.runState = .error c) → step s = .next s

/-- R82: with an empty queue an InputNeeded machine is unchanged by a step; otherwise it moves to
Continue and the same call goes on to decode at the unchanged pc, where the suspended `In` is decoded
again and completes. -/
def Obligations.InputNeededWaitsForTheQueue : Prop :=
  ∀ s : State, s.runState = .inputNeeded →
    (s.inq = [] → step s = .next s) ∧
    (s.inq ≠ [] → step s = fetchAndRun { s with runState := .cont }) ∧
    (∀ dst c rest, decodeAt s.mem s.pc = .ok (.inp dst, 2) → InArray dst → s.outbuf = [] → s.inq = c :: rest →
      ∃ t, step s = .next t ∧ StoresOnly s t dst.toNat c ∧ t.pc = s.pc + 2 ∧ t.stack = s.stack ∧
        t.inq = rest ∧ t.outbuf = [] ∧ t.runState = .cont)

/-- R83: a step from BufferedOutput drops the text, moves to Continue and goes on in the same call; a
step from Continue goes on as it is. -/
def Obligations.BufferedOutputMovesToContinue : Prop :=
  ∀ s : State,
    (∀ text, s.runState = .bufferedOutput text → step s = fetchAndRun { s with runState := .cont }) ∧
    (s.runState = .cont → step s = fetchAndRun s)

/-- R84: where the decoder returns no instruction, the step raises MalformedInstruction with the pc, and
OUTBUF is not drained; where it returns one, the step goes to stage 5 with it. `u` is the state stages 1
to 3 pass on. -/
def Obligations.DecodeFailureRaisesMalformedInstruction : Prop :=
  ∀ s u : State, beginStep s = some u →
    (∀ r, decodeAt u.mem u.pc = .error r →
      step s = .next { u with runState := .error (.malformedInstruction u.pc) }) ∧
    (∀ i n, decodeAt u.mem u.pc = .ok (i, n) → step s = drainOrExec i u)

/-- R86: before any instruction but `Out`, `Unknown` among them, a non-empty output buffer becomes the
text of BufferedOutput, the instruction is not executed, and pc and everything else are unchanged; the
next step decodes the same instruction again and executes it. -/
def Obligations.PendingOutputDrainsBeforeNonOut : Prop :=
  ∀ (s u : State) (i : Instr) (n : Nat), beginStep s = some u → decodeAt u.mem u.pc = .ok (i, n) →
    (i.opcodeWord ≠ 19 → u.outbuf ≠ [] →
      step s = .next { u with outbuf := [], runState := .bufferedOutput u.outbuf } ∧
      step { u with outbuf := [], runState := .bufferedOutput u.outbuf } =
        exec i { u with outbuf := [], runState := .cont }) ∧
    ((i.opcodeWord = 19 ∨ u.outbuf = []) → step s = exec i u)

/-- A step runs the decoded instruction: where the cells at the pc decode to `i` and no output is pending
(or `i` is `Out`), the step is exec of `i` at that state, first moved to Continue if it was suspended
(40_step_protocol.md section 3). -/
def Obligations.StepRunsTheDecodedInstruction : Prop :=
  ∀ (s : State) (i : Instr) (n : Nat), decodeAt s.mem s.pc = .ok (i, n) → (i.isOut = true ∨ s.outbuf = []) →
    (s.runState = .cont → step s = exec i s) ∧
    (∀ text, s.runState = .bufferedOutput text → step s = exec i { s with runState := .cont }) ∧
    (s.runState = .inputNeeded → s.inq ≠ [] → step s = exec i { s with runState := .cont })

/-- The transitions of run_state, row by row (10_state.md section 6, its second table). -/
def Obligations.RunStateTransitions : Prop :=
  ∀ s t : State, step s = .next t →
    ((s.runState = .halt ∨ (∃ c, s.runState = .error c) ∨ (s.runState = .inputNeeded ∧ s.inq = [])) → t = s) ∧
    ((s.runState = .cont ∨ (∃ x, s.runState = .bufferedOutput x) ∨ (s.runState = .inputNeeded ∧ s.inq ≠ [])) →
      (∀ r, decodeAt s.mem s.pc = .error r → t.runState = .error (.malformedInstruction s.pc)) ∧
      ∀ i n, decodeAt s.mem s.pc = .ok (i, n) →
        (i.isOut = false → s.outbuf ≠ [] → t.runState = .bufferedOutput s.outbuf) ∧
        ((i.isOut = true ∨ s.outbuf = []) →
          (i = .halt ∨ (i = .ret ∧ s.stack = []) → t.runState = .halt) ∧
          (∀ d, i = .inp d → InArray d → s.inq = [] → t.runState = .inputNeeded) ∧
          (i ≠ .halt → ¬ (i = .ret ∧ s.stack = []) → ¬ (∃ d, i = .inp d ∧ InArray d ∧ s.inq = []) →
            t.runState = .cont ∨ ∃ c, t.runState = .error c)))

/-! ### The instructions: results, completion and frames -/

/-- R90: `Set` with a destination outside the eight register addresses raises IllegalRegisterTarget
before anything else, whatever its value operand, and leaves all registers unchanged; inside them this
test raises nothing. -/
def Obligations.SetChecksItsRegisterFirst : Prop :=
  ∀ (s : State) (dst val : Word),
    (dst.toNat < 32768 ∨ 32776 ≤ dst.toNat →
      exec (.set dst val) s = .next { s with runState := .error (.illegalRegisterTarget dst) }) ∧
    (32768 ≤ dst.toNat → dst.toNat < 32776 → Running s → ∀ t d, exec (.set dst val) s = .next t →
      t.runState ≠ .error (.illegalRegisterTarget d))

/-- `Set` completes: the register receives the whole 16-bit value, and nothing else changes but pc
(41_data_movement.md, Set; that nothing is reduced is decision D1). -/
def Obligations.SetCopiesItsValueToTheRegister : Prop :=
  ∀ (s : State) (dst val : Word), 32768 ≤ dst.toNat → dst.toNat < 32776 → InArray val →
    ∃ t, exec (.set dst val) s = .next t ∧ WritesCell s t dst.toNat (s.valueOf val) 3

/-- `Push` completes (the stack is unbounded by default, decision D15): the value goes on top, no cell
changes (41_data_movement.md, Push). -/
def Obligations.PushAddsItsValueOnTop : Prop :=
  ∀ (s : State) (val : Word), InArray val →
    ∃ t, exec (.push val) s = .next t ∧ SameCells s t ∧ t.pc = s.pc + 2 ∧
      t.stack = s.stack ++ [s.valueOf val] ∧ t.inq = s.inq ∧ t.outbuf = s.outbuf ∧ t.runState = s.runState

/-- `Pop`: the top goes to the destination cell, register or not, and leaves the stack; an empty stack is
the fault StackUnderflow (41_data_movement.md, Pop; that a fault changes nothing else is decision D10). -/
def Obligations.PopTakesTheTopOrUnderflows : Prop :=
  ∀ (s : State) (dst : Word), InArray dst →
    (∀ rest v, s.stack = rest ++ [v] →
      ∃ t, exec (.pop dst) s = .next t ∧ StoresOnly s t dst.toNat v ∧ t.pc = s.pc + 2 ∧
        t.stack = rest ∧ t.inq = s.inq ∧ t.outbuf = s.outbuf ∧ t.runState = s.runState) ∧
    (s.stack = [] → ∃ t, exec (.pop dst) s = .next t ∧ Faulted s t .stackUnderflow)

/-- The stack primitives (10_state.md section 4): `Push` appends at the end unless the depth is reached,
when StackOverflow is raised (decision D15, log 7); `Pop` returns the last element and removes it. The
callers differ on an empty stack: `Pop` faults (precise by decision D10) and `Ret` halts (pc by D8). -/
def Obligations.StackPrimitivesWorkAtTheEnd : Prop :=
  ∀ (s : State) (depth : Option Nat) (v : Word),
    (depth = some s.stack.length → pushStack depth s v = .error .stackOverflow) ∧
    (∀ val, InArray val → depth = some s.stack.length →
      pushValue depth val s = .next { s with runState := .error .stackOverflow }) ∧
    (depth ≠ some s.stack.length → pushStack depth s v = .ok { s with stack := s.stack ++ [v] }) ∧
    popStack { s with stack := s.stack ++ [v] } = some (v, s) ∧
    popStack { s with stack := [] } = none ∧
    (∀ dst, InArray dst → exec (.pop dst) { s with stack := [] } =
      .next { s with stack := [], runState := .error .stackUnderflow }) ∧
    exec .ret { s with stack := [] } = .next { s with stack := [], runState := .halt }

/-- With a finite STACK_DEPTH (the model takes any depth: decision D15, log 7), `Push` and `Call` on a
full stack raise StackOverflow and change nothing else, and complete on a stack that is not full. -/
def Obligations.FiniteStackOverflowsWhenFull : Prop :=
  ∀ (s : State) (n : Nat) (w : Word), InArray w →
    (s.stack.length = n →
      (∃ t, pushValue (some n) w s = .next t ∧ Faulted s t .stackOverflow) ∧
      (∃ t, callTarget (some n) w s = .next t ∧ Faulted s t .stackOverflow)) ∧
    (s.stack.length < n →
      (∃ t, pushValue (some n) w s = .next t ∧ t.stack = s.stack ++ [s.valueOf w] ∧ t.stack.length ≤ n) ∧
      (∃ t, callTarget (some n) w s = .next t ∧ t.stack = s.stack ++ [s.pc + 2] ∧ t.stack.length ≤ n))

/-- `Eq` and `Gt` complete: 1 or 0 in the destination cell, from an unsigned comparison of the full
16-bit values (42_compare.md; on values from 32768 up decision D6). -/
def Obligations.ComparisonsWriteOneOrZero : Prop :=
  ∀ (s : State) (dst a b : Word), InArray dst → InArray a → InArray b →
    (∃ t, exec (.eq dst a b) s = .next t ∧
      WritesCell s t dst.toNat (if s.valueOf a = s.valueOf b then 1 else 0) 4) ∧
    (∃ t, exec (.gt dst a b) s = .next t ∧
      WritesCell s t dst.toNat (if (s.valueOf a).toNat > (s.valueOf b).toNat then 1 else 0) 4)

/-- `Jmp`, and `Jt` and `Jf` taken or not, complete by moving pc alone; the target word of a jump not
taken is not looked at (43_control_transfer.md; decision D12). -/
def Obligations.JumpsMoveOnlyThePc : Prop :=
  ∀ (s : State) (test addr : Word), InArray test →
    (InArray addr → ∃ t, exec (.jmp addr) s = .next t ∧ MovesPc s t (s.valueOf addr)) ∧
    (s.valueOf test ≠ 0 →
      (InArray addr → ∃ t, exec (.jt test addr) s = .next t ∧ MovesPc s t (s.valueOf addr)) ∧
      (∃ t, exec (.jf test addr) s = .next t ∧ MovesPc s t (s.pc + 3))) ∧
    (s.valueOf test = 0 →
      (InArray addr → ∃ t, exec (.jf test addr) s = .next t ∧ MovesPc s t (s.valueOf addr)) ∧
      (∃ t, exec (.jt test addr) s = .next t ∧ MovesPc s t (s.pc + 3)))

/-- `Call` completes (unbounded stack, decision D15): the address of the word after it is pushed and pc
is the resolved target (43_control_transfer.md, Call). -/
def Obligations.CallPushesTheReturnAddress : Prop :=
  ∀ (s : State) (addr : Word), InArray addr →
    ∃ t, exec (.call addr) s = .next t ∧ SameCells s t ∧ t.pc = s.valueOf addr ∧
      t.stack = s.stack ++ [s.pc + 2] ∧ t.inq = s.inq ∧ t.outbuf = s.outbuf ∧ t.runState = s.runState

/-- `Ret`: pc is the popped value, whoever pushed it; on an empty stack it is the normal end, with pc
unchanged by decision D8 (43_control_transfer.md, Ret). -/
def Obligations.RetPopsThePcOrHalts : Prop :=
  ∀ s : State,
    (∀ rest v, s.stack = rest ++ [v] →
      ∃ t, exec .ret s = .next t ∧ SameCells s t ∧ t.pc = v ∧ t.stack = rest ∧ t.inq = s.inq ∧
        t.outbuf = s.outbuf ∧ t.runState = s.runState) ∧
    (s.stack = [] → exec .ret s = .next { s with runState := .halt })

/-- A `Ret` straight after a completed `Call` comes back to the address after the `Call` with the stack
the `Call` found (43_control_transfer.md, Call and Ret). -/
def Obligations.RetUndoesCall : Prop :=
  ∀ (s t : State) (addr : Word), Running s → exec (.call addr) s = .next t → t.runState = .cont →
    exec .ret t = .next { s with pc := s.pc + 2 }

/-- `Add` and `Mult` complete: the exact sum or product, modulo 32768, in the destination cell
(44_arithmetic_logic.md; on operand values from 32768 up decision D6). -/
def Obligations.AddAndMultReduceTheExactResult : Prop :=
  ∀ (s : State) (dst a b : Word), InArray dst → InArray a → InArray b →
    (∃ t, exec (.add dst a b) s = .next t ∧
      WritesCell s t dst.toNat (BitVec.ofNat 16 (((s.valueOf a).toNat + (s.valueOf b).toNat) % 32768)) 4) ∧
    (∃ t, exec (.mult dst a b) s = .next t ∧
      WritesCell s t dst.toNat (BitVec.ofNat 16 (((s.valueOf a).toNat * (s.valueOf b).toNat) % 32768)) 4)

/-- `Mod`: the remainder of natural-number division, below the divisor and not reduced; a zero divisor is
the fault DivideByZero by decision D5 (44_arithmetic_logic.md, Mod). -/
def Obligations.ModWritesTheRemainderOrFaults : Prop :=
  ∀ (s : State) (dst a b : Word), InArray dst → InArray a → InArray b →
    (s.valueOf b ≠ 0 →
      ∃ t q r, exec (.mod dst a b) s = .next t ∧ WritesCell s t dst.toNat r 4 ∧
        (s.valueOf a).toNat = q * (s.valueOf b).toNat + r.toNat ∧ r.toNat < (s.valueOf b).toNat) ∧
    (s.valueOf b = 0 → ∃ t, exec (.mod dst a b) s = .next t ∧ Faulted s t .divideByZero)

/-- `And`, `Or`, `Not` complete: bits 0 to 14 are combined bit by bit and bit 15 of the result is 0
(44_arithmetic_logic.md; on operand values from 32768 up decision D6). -/
def Obligations.BitwiseResultsAreFifteenBits : Prop :=
  ∀ (s : State) (dst a b : Word), InArray dst → InArray a → InArray b →
    (∃ t r, exec (.and dst a b) s = .next t ∧ WritesCell s t dst.toNat r 4 ∧
      ∀ k, k < 16 → r.getLsbD k = (decide (k < 15) && ((s.valueOf a).getLsbD k && (s.valueOf b).getLsbD k))) ∧
    (∃ t r, exec (.or dst a b) s = .next t ∧ WritesCell s t dst.toNat r 4 ∧
      ∀ k, k < 16 → r.getLsbD k = (decide (k < 15) && ((s.valueOf a).getLsbD k || (s.valueOf b).getLsbD k))) ∧
    (∃ t r, exec (.not dst a) s = .next t ∧ WritesCell s t dst.toNat r 3 ∧
      ∀ k, k < 16 → r.getLsbD k = (decide (k < 15) && !(s.valueOf a).getLsbD k))

/-- `Rmem`: the cell at the resolved address, register cells included, is copied whole; an address past
the array is the fault AddressOutOfRange (45_memory_access.md, Rmem; decision D4). -/
def Obligations.RmemLoadsTheAddressedCell : Prop :=
  ∀ (s : State) (dst src : Word), InArray dst → InArray src →
    (InArray (s.valueOf src) →
      ∃ t, exec (.rmem dst src) s = .next t ∧ WritesCell s t dst.toNat (s.cell (s.valueOf src).toNat) 3) ∧
    (¬ InArray (s.valueOf src) →
      ∃ t, exec (.rmem dst src) s = .next t ∧ Faulted s t (.addressOutOfRange (s.valueOf src)))

/-- `Wmem`: the value goes whole to the cell at the resolved address, register cells included; an address
past the array is the fault AddressOutOfRange (45_memory_access.md, Wmem; decision D4). -/
def Obligations.WmemStoresToTheAddressedCell : Prop :=
  ∀ (s : State) (dst val : Word), InArray dst → InArray val →
    (InArray (s.valueOf dst) →
      ∃ t, exec (.wmem dst val) s = .next t ∧ WritesCell s t (s.valueOf dst).toNat (s.valueOf val) 3) ∧
    (¬ InArray (s.valueOf dst) →
      ∃ t, exec (.wmem dst val) s = .next t ∧ Faulted s t (.addressOutOfRange (s.valueOf dst)))

/-- `Out`: a convertible value is appended to OUTBUF and nothing else changes but pc; another is the
fault UnconvertibleOutput, which keeps OUTBUF; every code of 0..127 is convertible (46_console_io.md,
Out; CHAR_CONVERTIBLE is open, decision D17, log 5: the statement holds for every predicate). -/
def Obligations.OutAppendsConvertibleCharacters : Prop :=
  ∀ (s : State) (val : Word), InArray val →
    (charConvertible (s.valueOf val) = true →
      ∃ t, exec (.out val) s = .next t ∧ SameCells s t ∧ t.pc = s.pc + 2 ∧ t.stack = s.stack ∧
        t.inq = s.inq ∧ t.outbuf = s.outbuf ++ [s.valueOf val] ∧ t.runState = s.runState) ∧
    (charConvertible (s.valueOf val) = false →
      ∃ t, exec (.out val) s = .next t ∧ Faulted s t (.unconvertibleOutput (s.valueOf val))) ∧
    ((s.valueOf val).toNat < 128 → charConvertible (s.valueOf val) = true)

/-- `In`: the front of INQ goes to the destination cell as supplied (decision D18) and leaves the queue;
on an empty queue the machine suspends in InputNeeded with pc unchanged (46_console_io.md, In). -/
def Obligations.InTakesTheFrontOrSuspends : Prop :=
  ∀ (s : State) (dst : Word), InArray dst →
    (∀ c rest, s.inq = c :: rest →
      ∃ t, exec (.inp dst) s = .next t ∧ StoresOnly s t dst.toNat c ∧ t.pc = s.pc + 2 ∧
        t.stack = s.stack ∧ t.inq = rest ∧ t.outbuf = s.outbuf ∧ t.runState = s.runState) ∧
    (s.inq = [] → exec (.inp dst) s = .next { s with runState := .inputNeeded })

/-- R166: `Noop` is the word 21 alone and advances only; as a non-`Out` instruction it is preceded by the drain of a non-empty
output buffer; at cell 32775 it leaves pc = 32776 and the next step faults with MalformedInstruction. -/
def Obligations.NoopAdvancesOnly : Prop :=
  (∀ ops, decodeWindow (21 :: ops) = .ok (.noop, 1)) ∧ encode .noop = [21] ∧
  ∀ s : State,
    (∃ t, exec .noop s = .next t ∧ MovesPc s t (s.pc + 1)) ∧
    (Running s → decodeAt s.mem s.pc = .ok (.noop, 1) →
      (s.outbuf = [] → step s = .next { s with pc := s.pc + 1 }) ∧
      (s.outbuf ≠ [] → step s = .next { s with outbuf := [], runState := .bufferedOutput s.outbuf }) ∧
      (s.outbuf = [] → s.pc = 32775 →
        ∃ t, step s = .next t ∧ t.pc = 32776 ∧
          step t = .next { t with runState := .error (.malformedInstruction 32776) }))

/-- `Halt` stops with pc unchanged (decision D8), and `Unknown(raw)` always raises UnknownOpcode(raw)
with everything else unchanged (47_system.md; decisions D9 and D10). -/
def Obligations.HaltStopsAndUnknownFaults : Prop :=
  ∀ (s : State) (raw : Word),
    exec .halt s = .next { s with runState := .halt } ∧
    (∃ t, exec (.unknown raw) s = .next t ∧ Faulted s t (.unknownOpcode raw))

/-! ### Faults -/

/-- The destination check comes first: each of the eleven instructions it guards faults with
AddressOutOfRange, whatever its other operands and the state (40_step_protocol.md section 2, CheckDst and
the order of tests; decisions D3 and D11). -/
def Obligations.BadDestinationFaultsFirst : Prop :=
  ∀ (i : Instr) (s : State) (d : Word), checkedDst i = some d → 32776 ≤ d.toNat →
    ∃ t, exec i s = .next t ∧ Faulted s t (.addressOutOfRange d)

/-- The source operands are tested next, left to right, before any test of the state: the first invalid
word is the one reported; the target of a conditional jump is tested only when the jump is taken
(40_step_protocol.md section 2; decisions D2, D11 and D12). -/
def Obligations.InvalidSourcesFaultLeftToRight : Prop :=
  (∀ (i : Instr) (s : State) (before after : List Word) (w : Word), DestinationOk i →
    sourceWords i = before ++ w :: after → (∀ x ∈ before, InArray x) → ¬ InArray w →
    ∃ t, exec i s = .next t ∧ Faulted s t (.invalidOperand w)) ∧
  (∀ (s : State) (test addr : Word), InArray test → ¬ InArray addr →
    (s.valueOf test ≠ 0 → ∃ t, exec (.jt test addr) s = .next t ∧ Faulted s t (.invalidOperand addr)) ∧
    (s.valueOf test = 0 → ∃ t, exec (.jf test addr) s = .next t ∧ Faulted s t (.invalidOperand addr)))

/-- Faults are precise: an instruction that ends in Error, and a step that newly ends in Error, has
changed nothing but run_state (60_exceptions.md section 1; decision D10). -/
def Obligations.FaultsChangeOnlyTheRunState : Prop :=
  (∀ (i : Instr) (s t : State) (c : Cause), Running s → exec i s = .next t → t.runState = .error c →
    Faulted s t c) ∧
  (∀ (s t : State) (c : Cause), (∀ c', s.runState ≠ .error c') → step s = .next t → t.runState = .error c →
    Faulted s t c)

/-- No refusal: every instruction in every state, and every step from every state, answers a next state
(40_step_protocol.md section 3 gives each its outcome; that a fault is a next state is log 3). -/
def Obligations.EveryStepAnswersANextState : Prop :=
  (∀ (i : Instr) (s : State), ∃ t, exec i s = .next t) ∧ ∀ s : State, ∃ t, step s = .next t

/-! ### Frames and whole-machine rules -/

/-- Memory frame of every instruction: a cell that is not the one stored to, the raw destination or the
resolved address of `Wmem`, reads as before, whether the instruction completes, suspends or faults
(20_memory.md section 6, the table of storage). -/
def Obligations.OnlyTheStoreTargetChanges : Prop :=
  ∀ (i : Instr) (s t : State), exec i s = .next t → ∀ a, storeTarget i s ≠ some a → t.cell a = s.cell a

/-- Frame of the stack and the queues: only `Push`, `Pop`, `Call`, `Ret` change STACK, only `In` changes
INQ and only by taking its front, only `Out` changes OUTBUF and only by appending (20_memory.md section
6, the table of storage). -/
def Obligations.StackAndQueuesChangeOnlyByTheirOwn : Prop :=
  ∀ (i : Instr) (s t : State), exec i s = .next t →
    (usesStack i = false → t.stack = s.stack) ∧
    (usesInput i = false → t.inq = s.inq) ∧ (t.inq = s.inq ∨ ∃ c, s.inq = c :: t.inq) ∧
    (i.isOut = false → t.outbuf = s.outbuf) ∧ (t.outbuf = s.outbuf ∨ ∃ v, t.outbuf = s.outbuf ++ [v])

/-- The address after a decoded instruction does not wrap and is at most 32776, so the 16-bit sum of log
8 is the exact one (10_state.md section 3; decision D8). -/
def Obligations.NextPcDoesNotWrap : Prop :=
  ∀ (s : State) (i : Instr) (n : Nat), decodeAt s.mem s.pc = .ok (i, n) →
    (s.nextPc i).toNat = s.pc.toNat + n ∧ (s.nextPc i).toNat ≤ 32776

/-- The result of a completed `Eq`, `Gt`, `Add`, `Mult`, `And`, `Or`, `Not` is below 32768, and that of
`Mod` is whenever its first operand is (10_state.md section 2; decision D6 for larger operands). -/
def Obligations.ArithmeticResultsStayBelow32768 : Prop :=
  ∀ (s t : State) (dst a b : Word), Running s → t.runState = .cont →
    (∀ i ∈ [Instr.eq dst a b, .gt dst a b, .add dst a b, .mult dst a b, .and dst a b, .or dst a b, .not dst a],
      exec i s = .next t → (t.cell dst.toNat).toNat < 32768) ∧
    (exec (.mod dst a b) s = .next t → (s.valueOf a).toNat < 32768 → (t.cell dst.toNat).toNat < 32768)

/-- A register is a cell: the word 32768 + i as a source names register i, which is cell 32768 + i, and
writing one register or that cell changes no other (10_state.md section 2). -/
def Obligations.RegistersAreTheTopCells : Prop :=
  ∀ (s : State) (i j : Fin 8) (v : Word),
    s.reg i = s.cell (32768 + i.val) ∧
    resolve s (BitVec.ofNat 16 (32768 + i.val)) = .ok (s.reg i) ∧
    (s.setReg i v).reg j = (if j = i then v else s.reg j) ∧
    (∀ a, a < 32768 → (s.setReg i v).cell a = s.cell a)

/-- A store is seen by the very next fetch: after a completed `Wmem`, the window at the stored cell begins
with the stored value, so a decode there reads it, at the next address too (20_memory.md section 7; log
10 for the window). -/
def Obligations.StoreIsSeenByTheNextFetch : Prop :=
  ∀ (s t : State) (dst val p : Word), Running s → exec (.wmem dst val) s = .next t → t.runState = .cont →
    p = s.valueOf dst →
    (∀ raw n, decodeAt t.mem p = .ok (.unknown raw, n) → raw = s.valueOf val) ∧
    (∀ i n, decodeAt t.mem p = .ok (i, n) → i.opcodeWord = s.valueOf val) ∧
    (22 ≤ (s.valueOf val).toNat → decodeAt t.mem p = .ok (.unknown (s.valueOf val), 1))

/-- The canonical form is unique: two memories in it that read the same at every index are equal, so
equal memories are equal data (the model's choice of representation, log 1). -/
def Obligations.CanonicalMemoriesAreDeterminedByTheirCells : Prop :=
  ∀ m m' : Memory, m.wf → m'.wf → (∀ a, Memory.read m a = Memory.read m' a) → m = m'

/-! ### Invariants -/

/-- The reset state: every cell and register 0, pc 0, stack and queues empty, Continue
(70_reset_and_hazards.md section 1; the empty queues are decision D30); it is what constructing the empty
program gives. -/
def Obligations.ResetValues : Prop :=
  (∀ a, State.reset.cell a = 0) ∧ (∀ i, State.reset.reg i = 0) ∧ State.reset.pc = 0 ∧
  State.reset.stack = [] ∧ State.reset.inq = [] ∧ State.reset.outbuf = [] ∧ State.reset.runState = .cont ∧
  construct [] = .next State.reset

/-- The invariant of 10_state.md section 6 holds at reset. -/
def Obligations.ResetMeetsTheInvariant : Prop := Inv State.reset

/-- Every step keeps the invariant of 10_state.md section 6: a delivered text is non-empty with nothing
buffered beside it, a waiting machine stands at an `In` with a legal destination and nothing buffered,
buffered and delivered characters are convertible, and MEM stays a memory of 32776 cells. -/
def Obligations.StepKeepsTheInvariant : Prop :=
  ∀ s t : State, Inv s → step s = .next t → Inv t

/-- The invariant holds in every state a host can bring the machine to, by any construction and any
sequence of host operations (10_state.md section 6). -/
def Obligations.ReachableStatesMeetTheInvariant : Prop := ∀ s : State, Reachable s → Inv s

/-- Output order: over any number of steps, the characters output, after those already buffered, are
exactly the texts handed to the host in order, followed by what is still buffered; none is lost, repeated
or reordered (20_memory.md section 7, console queues). -/
def Obligations.OutputIsDeliveredInOrder : Prop :=
  ∀ (n : Nat) (s : State), s.outbuf ++ emittedBy n s = deliveredBy n s ++ (stepsFrom n s).outbuf

/-- A suspended `In` resumes and completes the same instruction: it suspends with nothing changed, stays
so while no input is supplied, stays suspended when input is supplied, and the next step stores the first
character (46_console_io.md, In and SupplyInput; decisions D18 and D22). -/
def Obligations.SuspendedInResumesAndCompletes : Prop :=
  ∀ (s : State) (dst : Word) (c : Nat) (cs : List Nat), Running s →
    decodeAt s.mem s.pc = .ok (.inp dst, 2) → InArray dst → s.outbuf = [] → s.inq = [] →
    (∀ x ∈ c :: cs, x ≤ 65535) →
    ∃ w u t : State, step s = .next w ∧ w = { s with runState := .inputNeeded } ∧ step w = .next w ∧
      supplyInput (c :: cs) w = .next u ∧ u.runState = .inputNeeded ∧
      step u = .next t ∧ StoresOnly s t dst.toNat (BitVec.ofNat 16 c) ∧ t.pc = s.pc + 2 ∧
      t.stack = s.stack ∧ t.inq = cs.map (BitVec.ofNat 16) ∧ t.outbuf = [] ∧ t.runState = .cont

/-! ### Host operations -/

/-- No host operation on an existing machine leaves Error or Halt, and none changes MEM, pc or STACK
there, so no second fault can occur (R176; R33 (e)). `Run` is no operation of `HostOp`: it is a sequence of
`Step`s (R93). A construction answers a fresh machine in Continue, with the program in the low cells and
everything else zero or empty (R200, R35; the empty queues are decision D30, log 15). -/
def Obligations.OnlyConstructLeavesHaltOrError : Prop :=
  (∀ (op : HostOp) (s t : State), (s.runState = .halt ∨ ∃ c, s.runState = .error c) →
    hostApply op s = .next t →
    t.runState = s.runState ∧ t.mem = s.mem ∧ t.pc = s.pc ∧ t.stack = s.stack) ∧
  (∀ (program : List Word) (t : State), construct program = .next t →
    t.runState = .cont ∧ t.pc = 0 ∧ t.stack = [] ∧ t.inq = [] ∧ t.outbuf = [] ∧
      ∀ k, t.cell k = program.getD k 0)

/-- `Construct` copies the program to the low cells, zeroes the rest and the registers, and resets
everything else; a program over 32768 words is refused (70_reset_and_hazards.md section 1; decisions D19
and D30). -/
def Obligations.ConstructLoadsTheProgram : Prop :=
  ∀ program : List Word,
    (program.length ≤ 32768 →
      ∃ t, construct program = .next t ∧ (∀ k, t.cell k = program.getD k 0) ∧ t.pc = 0 ∧ t.stack = [] ∧
        t.inq = [] ∧ t.outbuf = [] ∧ t.runState = .cont) ∧
    (32768 < program.length → construct program = .refused (.programTooLong program.length))

/-- The program binary: word i is byte 2i plus 256 times byte 2i + 1; an odd number of bytes is refused
(70_reset_and_hazards.md section 1; decision D19). -/
def Obligations.ProgramBytesAreLittleEndian : Prop :=
  ∀ bytes : List Byte,
    (bytes.length % 2 = 1 → constructBytes bytes = .refused .oddByteCount) ∧
    (bytes.length % 2 = 0 → ∃ ws, constructBytes bytes = construct ws ∧ 2 * ws.length = bytes.length ∧
      ∀ i, i < ws.length →
        (ws.getD i 0).toNat = (bytes.getD (2 * i) 0).toNat + 256 * (bytes.getD (2 * i + 1) 0).toNat)

/-- `Run` makes at least one step and returns at the first that does not leave Continue; it never returns
Continue, and it diverges exactly when every step leaves Continue (40_step_protocol.md section 4; decision
D23; the step bound is the model's, log 11). -/
def Obligations.RunStopsAtTheFirstStepOutOfContinue : Prop :=
  ∀ s : State,
    (∀ t, RunReturns s t ↔ ∃ n, t = stepsFrom (n + 1) s ∧ t.runState ≠ .cont ∧
      ∀ k, 1 ≤ k → k ≤ n → (stepsFrom k s).runState = .cont) ∧
    (RunDiverges s ↔ ∀ k, 1 ≤ k → (stepsFrom k s).runState = .cont)

/-- `SupplyInput` appends the codes in order and changes nothing else, in any run-state; a sequence with
a code above 65535 is refused as a whole (46_console_io.md section 4; decisions D18 and D22). -/
def Obligations.SupplyInputAppendsOrIsRefused : Prop :=
  ∀ (s : State) (codes : List Nat),
    ((∀ c ∈ codes, c ≤ 65535) →
      ∃ added : List Word, added.map BitVec.toNat = codes ∧
        supplyInput codes s = .next { s with inq := s.inq ++ added }) ∧
    ((∃ c ∈ codes, 65535 < c) → ∃ c, 65535 < c ∧ supplyInput codes s = .refused (.inputCodeTooWide c))

/-- `FlushOutput` returns the buffer and empties it, and `ReadRegisters` returns the cells 32768 to 32775
in order; neither changes anything else, in any run-state (46_console_io.md section 4; decisions D21 and
D26). -/
def Obligations.FlushAndReadRegisters : Prop :=
  ∀ s : State,
    flushOutput s = (s.outbuf, { s with outbuf := [] }) ∧
    hostApply .flushOutput s = .next { s with outbuf := [] } ∧
    readRegisters s = [s.cell 32768, s.cell 32769, s.cell 32770, s.cell 32771, s.cell 32772, s.cell 32773,
      s.cell 32774, s.cell 32775] ∧
    hostApply .readRegisters s = .next s

/-- The classes of outcome and what a step does in each: completed is Halt, faulted is Error with its
cause, waiting for the host is InputNeeded with an empty queue (R184, R182); a machine of one of these is
left unchanged by a step (R81, R82), and any other goes on to decode in Continue (R82, R83). -/
def Obligations.StoppedVerdictsDoNotStep : Prop :=
  ∀ s : State,
    (verdict s = .completed ↔ s.runState = .halt) ∧
    (∀ c, verdict s = .faulted c ↔ s.runState = .error c) ∧
    (verdict s = .waitsForHost ↔ s.runState = .inputNeeded ∧ s.inq = []) ∧
    (verdict s ≠ .runs → step s = .next s) ∧
    (verdict s = .runs → step s = fetchAndRun { s with runState := .cont })
end

