-- ==== Sys2Proof/Laws/State.lean ====
section
/-! SUPPORT. One lemma per field per update, so that no later proof unfolds a record update. -/

namespace Sys2Proof.Machine

@[simp] theorem setCell_mem (s : State) (a : Nat) (v : Word) : (s.setCell a v).mem = s.mem.write a v := rfl
@[simp] theorem setCell_pc (s : State) (a : Nat) (v : Word) : (s.setCell a v).pc = s.pc := rfl
@[simp] theorem setCell_stack (s : State) (a : Nat) (v : Word) : (s.setCell a v).stack = s.stack := rfl
@[simp] theorem setCell_inq (s : State) (a : Nat) (v : Word) : (s.setCell a v).inq = s.inq := rfl
@[simp] theorem setCell_outbuf (s : State) (a : Nat) (v : Word) : (s.setCell a v).outbuf = s.outbuf := rfl
@[simp] theorem setCell_runState (s : State) (a : Nat) (v : Word) : (s.setCell a v).runState = s.runState := rfl

@[simp] theorem setPc_mem (s : State) (t : Word) : (s.setPc t).mem = s.mem := rfl
@[simp] theorem setPc_pc (s : State) (t : Word) : (s.setPc t).pc = t := rfl
@[simp] theorem setPc_stack (s : State) (t : Word) : (s.setPc t).stack = s.stack := rfl
@[simp] theorem setPc_inq (s : State) (t : Word) : (s.setPc t).inq = s.inq := rfl
@[simp] theorem setPc_outbuf (s : State) (t : Word) : (s.setPc t).outbuf = s.outbuf := rfl
@[simp] theorem setPc_runState (s : State) (t : Word) : (s.setPc t).runState = s.runState := rfl
@[simp] theorem setPc_cell (s : State) (t : Word) (a : Nat) : (s.setPc t).cell a = s.cell a := rfl

@[simp] theorem advance_mem (s : State) (i : Instr) : (s.advance i).mem = s.mem := rfl
@[simp] theorem advance_pc (s : State) (i : Instr) : (s.advance i).pc = s.pc + BitVec.ofNat 16 i.length := rfl
@[simp] theorem advance_stack (s : State) (i : Instr) : (s.advance i).stack = s.stack := rfl
@[simp] theorem advance_inq (s : State) (i : Instr) : (s.advance i).inq = s.inq := rfl
@[simp] theorem advance_outbuf (s : State) (i : Instr) : (s.advance i).outbuf = s.outbuf := rfl
@[simp] theorem advance_runState (s : State) (i : Instr) : (s.advance i).runState = s.runState := rfl
@[simp] theorem advance_cell (s : State) (i : Instr) (a : Nat) : (s.advance i).cell a = s.cell a := rfl

@[simp] theorem setRunState_mem (s : State) (r : RunState) : (s.setRunState r).mem = s.mem := rfl
@[simp] theorem setRunState_pc (s : State) (r : RunState) : (s.setRunState r).pc = s.pc := rfl
@[simp] theorem setRunState_stack (s : State) (r : RunState) : (s.setRunState r).stack = s.stack := rfl
@[simp] theorem setRunState_inq (s : State) (r : RunState) : (s.setRunState r).inq = s.inq := rfl
@[simp] theorem setRunState_outbuf (s : State) (r : RunState) : (s.setRunState r).outbuf = s.outbuf := rfl
@[simp] theorem setRunState_runState (s : State) (r : RunState) : (s.setRunState r).runState = r := rfl
@[simp] theorem setRunState_cell (s : State) (r : RunState) (a : Nat) :
    (s.setRunState r).cell a = s.cell a := rfl

@[simp] theorem appendOutput_mem (s : State) (v : Word) : (s.appendOutput v).mem = s.mem := rfl
@[simp] theorem appendOutput_pc (s : State) (v : Word) : (s.appendOutput v).pc = s.pc := rfl
@[simp] theorem appendOutput_stack (s : State) (v : Word) : (s.appendOutput v).stack = s.stack := rfl
@[simp] theorem appendOutput_inq (s : State) (v : Word) : (s.appendOutput v).inq = s.inq := rfl
@[simp] theorem appendOutput_outbuf (s : State) (v : Word) : (s.appendOutput v).outbuf = s.outbuf ++ [v] := rfl
@[simp] theorem appendOutput_runState (s : State) (v : Word) : (s.appendOutput v).runState = s.runState := rfl
@[simp] theorem appendOutput_cell (s : State) (v : Word) (a : Nat) :
    (s.appendOutput v).cell a = s.cell a := rfl

@[simp] theorem resume_mem (s : State) : (resume s).mem = s.mem := rfl
@[simp] theorem resume_pc (s : State) : (resume s).pc = s.pc := rfl
@[simp] theorem resume_stack (s : State) : (resume s).stack = s.stack := rfl
@[simp] theorem resume_inq (s : State) : (resume s).inq = s.inq := rfl
@[simp] theorem resume_outbuf (s : State) : (resume s).outbuf = s.outbuf := rfl
@[simp] theorem resume_runState (s : State) : (resume s).runState = .cont := rfl

@[simp] theorem drain_mem (s : State) : (drain s).mem = s.mem := rfl
@[simp] theorem drain_pc (s : State) : (drain s).pc = s.pc := rfl
@[simp] theorem drain_stack (s : State) : (drain s).stack = s.stack := rfl
@[simp] theorem drain_inq (s : State) : (drain s).inq = s.inq := rfl
@[simp] theorem drain_outbuf (s : State) : (drain s).outbuf = [] := rfl
@[simp] theorem drain_runState (s : State) : (drain s).runState = .bufferedOutput s.outbuf := rfl

@[simp] theorem placeWords_mem (s : State) (ws : List Word) :
    (placeWords s ws).mem = s.mem.writeList (placePc s).toNat ws := rfl
@[simp] theorem placeWords_pc (s : State) (ws : List Word) : (placeWords s ws).pc = placePc s := rfl
@[simp] theorem placeWords_stack (s : State) (ws : List Word) : (placeWords s ws).stack = s.stack := rfl
@[simp] theorem placeWords_inq (s : State) (ws : List Word) : (placeWords s ws).inq = s.inq := rfl
@[simp] theorem placeWords_outbuf (s : State) (ws : List Word) :
    (placeWords s ws).outbuf = if ws.head? = some 19 then s.outbuf else [] := rfl
@[simp] theorem placeWords_runState (s : State) (ws : List Word) : (placeWords s ws).runState = .cont := rfl

@[simp] theorem flushOutput_text (s : State) : (flushOutput s).1 = s.outbuf := rfl
@[simp] theorem flushOutput_mem (s : State) : (flushOutput s).2.mem = s.mem := rfl
@[simp] theorem flushOutput_pc (s : State) : (flushOutput s).2.pc = s.pc := rfl
@[simp] theorem flushOutput_stack (s : State) : (flushOutput s).2.stack = s.stack := rfl
@[simp] theorem flushOutput_inq (s : State) : (flushOutput s).2.inq = s.inq := rfl
@[simp] theorem flushOutput_outbuf (s : State) : (flushOutput s).2.outbuf = [] := rfl
@[simp] theorem flushOutput_runState (s : State) : (flushOutput s).2.runState = s.runState := rfl

end Sys2Proof.Machine
end

