-- ==== Sys2Proof/Laws/Memory.lean ====
section
/-! SUPPORT. The laws of MEM: a read after a write, and that every memory operation keeps the canonical
form. -/

namespace Sys2Proof.Machine

@[simp] theorem read_nil (a : Nat) : Memory.read [] a = 0 := rfl

theorem read_cons (b : Nat) (v : Word) (m : Memory) (a : Nat) :
    Memory.read ((b, v) :: m) a = if a = b then v else Memory.read m a := rfl

theorem read_eq_zero_of_unlisted {m : Memory} {a : Nat} (h : ∀ c ∈ m, c.1 ≠ a) : Memory.read m a = 0 := by
  induction m with
  | nil => rfl
  | cons c m ih =>
    obtain ⟨b, v⟩ := c
    have hb : a ≠ b := fun e => h (b, v) (by simp) e.symm
    rw [read_cons, if_neg hb]
    exact ih fun c hc => h c (by simp [hc])

theorem read_append (m n : Memory) (a : Nat) :
    Memory.read (m ++ n) a = if ∃ c ∈ m, c.1 = a then Memory.read m a else Memory.read n a := by
  induction m with
  | nil => simp
  | cons c m ih =>
    obtain ⟨b, v⟩ := c
    rw [List.cons_append, read_cons, read_cons, ih]
    by_cases hab : a = b
    · subst hab; simp
    · have hba : ¬ b = a := fun e => hab e.symm
      simp [hab, hba]

theorem read_filter {p : Nat → Bool} (m : Memory) {a : Nat} (h : p a = true) :
    Memory.read (m.filter fun c => p c.1) a = Memory.read m a := by
  induction m with
  | nil => rfl
  | cons c m ih =>
    obtain ⟨b, v⟩ := c
    by_cases hb : p b = true
    · rw [List.filter_cons_of_pos (by simpa using hb), read_cons, read_cons, ih]
    · have hab : a ≠ b := by rintro rfl; exact hb h
      rw [List.filter_cons_of_neg (by simpa using hb), read_cons, if_neg hab, ih]

theorem mem_cellEntry {c : MemCell} {a : Nat} {v : Word} (h : c ∈ cellEntry a v) : c = (a, v) ∧ v ≠ 0 := by
  unfold cellEntry at h
  split at h
  · simp at h
  · exact ⟨by simpa using h, by assumption⟩

theorem read_cellEntry_same (a : Nat) (v : Word) : Memory.read (cellEntry a v) a = v := by
  unfold cellEntry
  split
  · rw [read_nil]; exact Eq.symm (by assumption)
  · simp [read_cons]

theorem read_cellEntry_other {a b : Nat} (v : Word) (h : b ≠ a) : Memory.read (cellEntry a v) b = 0 :=
  read_eq_zero_of_unlisted fun c hc => by
    obtain ⟨rfl, -⟩ := mem_cellEntry hc
    exact fun e => h e.symm

/-- A read after a write to the same cell gives the value written. -/
@[simp] theorem read_write_same (m : Memory) (a : Nat) (v : Word) : Memory.read (m.write a v) a = v := by
  have h1 : ¬ ∃ c ∈ m.filter (fun c => c.1 < a), c.1 = a := by
    rintro ⟨c, hc, rfl⟩; simp at hc
  have h3 : Memory.read (m.filter fun c => a < c.1) a = 0 :=
    read_eq_zero_of_unlisted fun c hc => by
      have := (List.mem_filter.1 hc).2
      simp only [decide_eq_true_eq] at this
      omega
  unfold Memory.write
  rw [List.append_assoc, read_append, if_neg h1, read_append]
  split
  · exact read_cellEntry_same a v
  · rename_i h
    by_cases hv : v = 0
    · rw [h3, hv]
    · have hmem : (a, v) ∈ cellEntry a v := by unfold cellEntry; rw [if_neg hv]; exact List.mem_singleton_self _
      exact absurd ⟨(a, v), hmem, rfl⟩ h

/-- A write leaves every other cell alone (R43). -/
theorem read_write_other (m : Memory) {a b : Nat} (v : Word) (h : b ≠ a) :
    Memory.read (m.write a v) b = Memory.read m b := by
  unfold Memory.write
  rw [List.append_assoc, read_append, read_append]
  have h2 : ¬ ∃ c ∈ cellEntry a v, c.1 = b := by
    rintro ⟨c, hc, rfl⟩
    obtain ⟨rfl, -⟩ := mem_cellEntry hc
    exact h rfl
  rw [if_neg h2]
  rcases Nat.lt_or_gt_of_ne h with hlt | hgt
  · have hf : Memory.read (m.filter fun c => decide (c.1 < a)) b = Memory.read m b :=
      read_filter (p := fun x => decide (x < a)) m (by simpa using hlt)
    split
    · exact hf
    · rename_i hn
      have h0 : Memory.read (m.filter fun c => decide (c.1 < a)) b = 0 :=
        read_eq_zero_of_unlisted fun c hc e => hn ⟨c, hc, e⟩
      have h1 : Memory.read (m.filter fun c => decide (a < c.1)) b = 0 :=
        read_eq_zero_of_unlisted fun c hc e => by
          have := (List.mem_filter.1 hc).2
          simp only [decide_eq_true_eq] at this
          omega
      rw [h1, ← hf, h0]
  · have hf : Memory.read (m.filter fun c => decide (a < c.1)) b = Memory.read m b :=
      read_filter (p := fun x => decide (a < x)) m (by simpa using hgt)
    rw [hf, if_neg]
    rintro ⟨c, hc, rfl⟩
    have := (List.mem_filter.1 hc).2
    simp only [decide_eq_true_eq] at this
    omega

theorem read_write (m : Memory) (a b : Nat) (v : Word) :
    Memory.read (m.write a v) b = if b = a then v else Memory.read m b := by
  split
  · subst b; exact read_write_same m a v
  · exact read_write_other m v (by assumption)

@[simp] theorem cell_setCell_same (s : State) (a : Nat) (v : Word) : (s.setCell a v).cell a = v :=
  read_write_same s.mem a v

theorem cell_setCell_other (s : State) {a b : Nat} (v : Word) (h : b ≠ a) :
    (s.setCell a v).cell b = s.cell b :=
  read_write_other s.mem v h

theorem wf_nil : Memory.wf [] := ⟨List.Pairwise.nil, by simp⟩

/-- A write inside the array keeps the canonical form. -/
theorem write_wf {m : Memory} (h : m.wf) {a : Nat} (ha : a < Config.memTop) (v : Word) : (m.write a v).wf := by
  obtain ⟨hs, hm⟩ := h
  refine ⟨?_, ?_⟩
  · unfold Memory.write
    rw [List.append_assoc, List.pairwise_append, List.pairwise_append]
    refine ⟨hs.filter _, ⟨?_, hs.filter _, ?_⟩, ?_⟩
    · unfold cellEntry; split <;> simp
    · intro c hc d hd
      obtain ⟨rfl, -⟩ := mem_cellEntry hc
      simpa using (List.mem_filter.1 hd).2
    · intro c hc d hd
      have h1 : c.1 < a := by simpa using (List.mem_filter.1 hc).2
      rcases List.mem_append.1 hd with hd | hd
      · obtain ⟨rfl, -⟩ := mem_cellEntry hd
        exact h1
      · have h2 : a < d.1 := by simpa using (List.mem_filter.1 hd).2
        omega
  · intro c hc
    unfold Memory.write at hc
    rcases List.mem_append.1 hc with hc | hc
    · rcases List.mem_append.1 hc with hc | hc
      · exact hm c (List.mem_filter.1 hc).1
      · obtain ⟨rfl, hv⟩ := mem_cellEntry hc
        exact ⟨ha, hv⟩
    · exact hm c (List.mem_filter.1 hc).1

theorem setCell_wf {s : State} (h : s.mem.wf) {a : Nat} (ha : a < Config.memTop) (v : Word) :
    (s.setCell a v).mem.wf :=
  write_wf h ha v

/-- Writing a word sequence inside the array keeps the canonical form. -/
theorem writeList_wf {ws : List Word} : ∀ {m : Memory} {a : Nat}, m.wf → a + ws.length ≤ Config.memTop →
    (m.writeList a ws).wf := by
  induction ws with
  | nil => intro m a h _; exact h
  | cons w ws ih =>
    intro m a h ha
    simp only [List.length_cons] at ha
    exact ih (write_wf h (by omega) w) (by omega)

theorem mem_imageFrom {ws : List Word} : ∀ {a : Nat} {c : MemCell}, c ∈ imageFrom a ws →
    a ≤ c.1 ∧ c.1 < a + ws.length ∧ c.2 ≠ 0 := by
  induction ws with
  | nil => intro a c h; simp [imageFrom] at h
  | cons w ws ih =>
    intro a c h
    rcases List.mem_append.1 h with h | h
    · obtain ⟨rfl, hv⟩ := mem_cellEntry h
      exact ⟨le_refl _, by simp, hv⟩
    · obtain ⟨h1, h2, h3⟩ := ih h
      simp only [List.length_cons]
      exact ⟨by omega, by omega, h3⟩

/-- The image of a program that fits the array is in canonical form. -/
theorem imageFrom_wf {ws : List Word} {a : Nat} (ha : a + ws.length ≤ Config.memTop) :
    Memory.wf (imageFrom a ws) := by
  refine ⟨?_, fun c hc => ?_⟩
  · clear ha
    induction ws generalizing a with
    | nil => simp [imageFrom]
    | cons w ws ih =>
      unfold imageFrom
      rw [List.pairwise_append]
      refine ⟨by unfold cellEntry; split <;> simp, ih, ?_⟩
      intro c hc d hd
      obtain ⟨rfl, -⟩ := mem_cellEntry hc
      have := (mem_imageFrom hd).1
      show a < d.1
      omega
  · obtain ⟨_, h2, h3⟩ := mem_imageFrom hc
    exact ⟨by omega, h3⟩

end Sys2Proof.Machine
end

