-- ==== Sys2Proof/Laws/Ops.lean ====
section
/-! SUPPORT. One lemma for each shared operation that says once everything it can do: the operand forms,
the stack and queue operations, the end of stage 6, and the stages of a step. -/

namespace Sys2Proof.Machine

/-! ### Operand forms -/

theorem checkDst_cases (d : Word) :
    (d.toNat < 32776 ∧ checkDst d = .ok ()) ∨ (32776 ≤ d.toNat ∧ checkDst d = .error (.addressOutOfRange d)) := by
  unfold checkDst
  split
  · exact .inl ⟨by assumption, rfl⟩
  · exact .inr ⟨Nat.le_of_not_lt (by assumption), rfl⟩

theorem checkReg_cases (d : Word) :
    ((32768 ≤ d.toNat ∧ d.toNat < 32776) ∧ checkReg d = .ok ()) ∨
      (¬ (32768 ≤ d.toNat ∧ d.toNat < 32776) ∧ checkReg d = .error (.illegalRegisterTarget d)) := by
  unfold checkReg
  split
  · exact .inl ⟨by assumption, rfl⟩
  · exact .inr ⟨by assumption, rfl⟩

/-- A register reference names the cell of its word: `32768 + w[2:0] = w` (R64). -/
theorem register_index {w : Word} (h1 : 32768 ≤ w.toNat) (h2 : w.toNat < 32776) :
    Config.regBase + ((w.extractLsb' 0 3).toFin : Fin 8).val = w.toNat := by
  have h : ((w.extractLsb' 0 3).toFin : Fin 8).val = w.toNat % 8 := by simp [BitVec.extractLsb']
  show 32768 + _ = _
  omega

/-- Resolve as R88 words it. -/
theorem resolve_eq (s : State) (w : Word) :
    resolve s w =
      if w.toNat < 32768 then .ok w
      else if w.toNat < 32776 then .ok (s.cell w.toNat)
      else .error (.invalidOperand w) := by
  unfold resolve classify
  by_cases h1 : w.toNat < 32768
  · simp [h1]
  · by_cases h2 : w.toNat < 32776
    · have hi := register_index (Nat.le_of_not_lt h1) h2
      simp only [h1, h2, if_true, if_false, State.reg, hi]
    · simp [h1, h2]

theorem memRead_cases (s : State) (a : Word) :
    (a.toNat < 32776 ∧ memRead s a = .ok (s.cell a.toNat)) ∨
      (32776 ≤ a.toNat ∧ memRead s a = .error (.addressOutOfRange a)) := by
  unfold memRead
  split
  · exact .inl ⟨by assumption, rfl⟩
  · exact .inr ⟨Nat.le_of_not_lt (by assumption), rfl⟩

theorem memWrite_cases (s : State) (a v : Word) :
    (a.toNat < 32776 ∧ memWrite s a v = .ok (s.setCell a.toNat v)) ∨
      (32776 ≤ a.toNat ∧ memWrite s a v = .error (.addressOutOfRange a)) := by
  unfold memWrite
  split
  · exact .inl ⟨by assumption, rfl⟩
  · exact .inr ⟨Nat.le_of_not_lt (by assumption), rfl⟩

/-! ### Stack and queues -/

theorem pushStack_cases (depth : Option Nat) (s : State) (v : Word) :
    (depth ≠ some s.stack.length ∧ pushStack depth s v = .ok { s with stack := s.stack ++ [v] }) ∨
      (depth = some s.stack.length ∧ pushStack depth s v = .error .stackOverflow) := by
  unfold pushStack
  split
  · exact .inr ⟨by assumption, rfl⟩
  · exact .inl ⟨by assumption, rfl⟩

theorem pushStack_unbounded (s : State) (v : Word) :
    pushStack Config.stackDepth s v = .ok { s with stack := s.stack ++ [v] } := rfl

theorem popStack_cases (s : State) :
    (s.stack = [] ∧ popStack s = none) ∨
      ∃ rest v, s.stack = rest ++ [v] ∧ popStack s = some (v, { s with stack := rest }) := by
  rcases List.eq_nil_or_concat s.stack with h | ⟨rest, v, h⟩
  · exact .inl ⟨h, by simp [popStack, h]⟩
  · refine .inr ⟨rest, v, by simpa using h, ?_⟩
    simp [popStack, h]

theorem popInput_cases (s : State) :
    (s.inq = [] ∧ popInput s = none) ∨
      ∃ c rest, s.inq = c :: rest ∧ popInput s = some (c, { s with inq := rest }) := by
  unfold popInput
  split
  · exact .inl ⟨by assumption, rfl⟩
  · exact .inr ⟨_, _, by assumption, rfl⟩

/-! ### The end of stage 6 -/

@[simp] theorem ok_bind {α β : Type} (a : α) (f : α → Except Cause β) : (Except.ok a >>= f) = f a := rfl

@[simp] theorem error_bind {α β : Type} (c : Cause) (f : α → Except Cause β) :
    ((Except.error c : Except Cause α) >>= f) = .error c := rfl

@[simp] theorem finish_ok (s t : State) : finish s (.ok t) = .next t := rfl

@[simp] theorem finish_pure (s t : State) : finish s (pure t) = .next t := rfl

@[simp] theorem finish_error (s : State) (c : Cause) : finish s (.error c) = raise c s := rfl

@[simp] theorem finish_throw (s : State) (c : Cause) : finish s (throw c) = raise c s := rfl

/-- Stage 6 ends in the completed state, or in the starting state with run_state Error. -/
theorem finish_cases {s t : State} {r : Except Cause State} (h : finish s r = .next t) :
    r = .ok t ∨ ∃ c, r = .error c ∧ t = s.setRunState (.error c) := by
  cases r with
  | ok u => exact .inl (by simpa using h)
  | error c => exact .inr ⟨c, rfl, by simpa [raise] using h.symm⟩

/-! ### The stages -/

theorem beginStep_cases (s : State) :
    (beginStep s = none ∧
        (s.runState = .halt ∨ (∃ c, s.runState = .error c) ∨ (s.runState = .inputNeeded ∧ s.inq = []))) ∨
      (beginStep s = some (resume s) ∧
        (s.runState = .cont ∨ (∃ t, s.runState = .bufferedOutput t) ∨ (s.runState = .inputNeeded ∧ s.inq ≠ []))) := by
  unfold beginStep
  cases h : s.runState with
  | cont => exact .inr ⟨congrArg some (by cases s; simp_all [resume, State.setRunState]), by simp⟩
  | bufferedOutput t => exact .inr ⟨rfl, by simp⟩
  | inputNeeded =>
    cases hq : s.inq with
    | nil => exact .inl (by simp)
    | cons c cs => exact .inr (by simp)
  | halt => exact .inl (by simp)
  | error c => exact .inl (by simp)

/-- Everything a step can do (R92): nothing, a decode fault, a drain, or the execution of the decoded
instruction, the last three from the state put back in Continue. -/
theorem step_cases (s : State) :
    (beginStep s = none ∧ step s = .next s) ∨
      (beginStep s = some (resume s) ∧
        ((∃ r, decodeAt s.mem s.pc = .error r ∧ step s = raise (.malformedInstruction s.pc) (resume s)) ∨
          ∃ i n, decodeAt s.mem s.pc = .ok (i, n) ∧
            ((i.isOut = false ∧ s.outbuf ≠ [] ∧ step s = .next (drain (resume s))) ∨
              ((i.isOut = true ∨ s.outbuf = []) ∧ step s = exec i (resume s))))) := by
  rcases beginStep_cases s with ⟨h, -⟩ | ⟨h, -⟩
  · exact .inl ⟨h, by simp [step, stepStages, h]⟩
  · refine .inr ⟨h, ?_⟩
    simp only [step, stepStages, h, fetchAndRun, resume_mem, resume_pc]
    cases hd : decodeAt s.mem s.pc with
    | error r => exact .inl ⟨r, rfl, rfl⟩
    | ok p =>
      obtain ⟨i, n⟩ := p
      refine .inr ⟨i, n, rfl, ?_⟩
      simp only [drainOrExec, resume_outbuf]
      by_cases hb : s.outbuf = []
      · exact .inr ⟨.inr hb, by simp [hb]⟩
      · have he : s.outbuf.isEmpty = false := by simpa using hb
        cases ho : i.isOut with
        | true => exact .inr ⟨.inl rfl, by simp⟩
        | false => exact .inl ⟨rfl, hb, by simp [he]⟩

end Sys2Proof.Machine
end

