-- ==== Sys2Proof/Laws/PerInstr.lean ====
section
/-! SUPPORT. Facts about every instruction as syntax, one lemma per constructor. -/

namespace Sys2Proof.Laws.EncodedLength

/-- The encoding of an instruction has as many words as its length says (R60, R67). -/
def Statement (i : Instr) : Prop := (encode i).length = i.length

theorem halt : Statement .halt := rfl
theorem set (dst val : Word) : Statement (.set dst val) := rfl
theorem push (val : Word) : Statement (.push val) := rfl
theorem pop (dst : Word) : Statement (.pop dst) := rfl
theorem eq (dst a b : Word) : Statement (.eq dst a b) := rfl
theorem gt (dst a b : Word) : Statement (.gt dst a b) := rfl
theorem jmp (addr : Word) : Statement (.jmp addr) := rfl
theorem jt (test addr : Word) : Statement (.jt test addr) := rfl
theorem jf (test addr : Word) : Statement (.jf test addr) := rfl
theorem add (dst a b : Word) : Statement (.add dst a b) := rfl
theorem mult (dst a b : Word) : Statement (.mult dst a b) := rfl
theorem mod (dst a b : Word) : Statement (.mod dst a b) := rfl
theorem and (dst a b : Word) : Statement (.and dst a b) := rfl
theorem or (dst a b : Word) : Statement (.or dst a b) := rfl
theorem not (dst val : Word) : Statement (.not dst val) := rfl
theorem rmem (dst src : Word) : Statement (.rmem dst src) := rfl
theorem wmem (dst val : Word) : Statement (.wmem dst val) := rfl
theorem call (addr : Word) : Statement (.call addr) := rfl
theorem ret : Statement .ret := rfl
theorem out (val : Word) : Statement (.out val) := rfl
theorem inp (dst : Word) : Statement (.inp dst) := rfl
theorem noop : Statement .noop := rfl
theorem unknown (raw : Word) : Statement (.unknown raw) := rfl

end Sys2Proof.Laws.EncodedLength
end

