-- ==== Sys2Proof/Tests/Slice0.lean ====
section
/-! SUPPORT. Tests. Expected results come from the vectors of 95_test_vectors.md (V.. and T.., named in
each docstring) and from words written out from 30_encoding.md; the witness theorems show that the
hypotheses of the statements can be met. -/

namespace Sys2Proof.Tests

open Sys2Proof Sys2Proof.Machine

/-! ### Well-formedness -/

/-- The one check of WellFormed refuses an `Unknown` whose word is a defined opcode (R66). -/
theorem test_wf_refuses_unknown_of_defined_opcode : (Instr.unknown 21).wf = false := by decide

theorem test_wf_lowest_and_highest_unknown :
    (Instr.unknown 22).wf = true ∧ (Instr.unknown 65535).wf = true := by decide

/-! ### Decoding: words written out from the opcode map (R63) -/

theorem test_decode_halt : decodeWindow [0b0000000000000000] = .ok (.halt, 1) := rfl
theorem test_decode_set : decodeWindow [0b0000000000000001, 0x8007, 0xFFFF] = .ok (.set 0x8007 0xFFFF, 3) := rfl
theorem test_decode_push : decodeWindow [0b0000000000000010, 7] = .ok (.push 7, 2) := rfl
theorem test_decode_pop : decodeWindow [0b0000000000000011, 7] = .ok (.pop 7, 2) := rfl
theorem test_decode_eq : decodeWindow [0b0000000000000100, 1, 2, 3] = .ok (.eq 1 2 3, 4) := rfl
theorem test_decode_gt : decodeWindow [0b0000000000000101, 1, 2, 3] = .ok (.gt 1 2 3, 4) := rfl
theorem test_decode_jmp : decodeWindow [0b0000000000000110, 5] = .ok (.jmp 5, 2) := rfl
theorem test_decode_jt : decodeWindow [0b0000000000000111, 1, 2] = .ok (.jt 1 2, 3) := rfl
theorem test_decode_jf : decodeWindow [0b0000000000001000, 1, 2] = .ok (.jf 1 2, 3) := rfl
theorem test_decode_add : decodeWindow [0b0000000000001001, 1, 2, 3] = .ok (.add 1 2 3, 4) := rfl
theorem test_decode_mult : decodeWindow [0b0000000000001010, 1, 2, 3] = .ok (.mult 1 2 3, 4) := rfl
theorem test_decode_mod : decodeWindow [0b0000000000001011, 1, 2, 3] = .ok (.mod 1 2 3, 4) := rfl
theorem test_decode_and : decodeWindow [0b0000000000001100, 1, 2, 3] = .ok (.and 1 2 3, 4) := rfl
theorem test_decode_or : decodeWindow [0b0000000000001101, 1, 2, 3] = .ok (.or 1 2 3, 4) := rfl
theorem test_decode_not : decodeWindow [0b0000000000001110, 1, 2] = .ok (.not 1 2, 3) := rfl
theorem test_decode_rmem : decodeWindow [0b0000000000001111, 1, 2] = .ok (.rmem 1 2, 3) := rfl
theorem test_decode_wmem : decodeWindow [0b0000000000010000, 1, 2] = .ok (.wmem 1 2, 3) := rfl
theorem test_decode_call : decodeWindow [0b0000000000010001, 9] = .ok (.call 9, 2) := rfl
theorem test_decode_ret : decodeWindow [0b0000000000010010] = .ok (.ret, 1) := rfl
theorem test_decode_out : decodeWindow [0b0000000000010011, 65] = .ok (.out 65, 2) := rfl
theorem test_decode_in : decodeWindow [0b0000000000010100, 9] = .ok (.inp 9, 2) := rfl
theorem test_decode_noop : decodeWindow [0b0000000000010101] = .ok (.noop, 1) := rfl

/-- The lowest, a middle and the highest `Unknown` word; no trailing word is looked at (R66, V47.5 to 8). -/
theorem test_decode_unknown :
    decodeWindow [22] = .ok (.unknown 22, 1) ∧ decodeWindow [0x0109, 1, 2, 3] = .ok (.unknown 265, 1) ∧
      decodeWindow [65535, 1, 2] = .ok (.unknown 65535, 1) := ⟨rfl, rfl, rfl⟩

theorem test_decode_rejects_by_name :
    decodeWindow [] = .error .emptyWindow ∧ decodeWindow [9, 1, 1] = .error (.truncated 9) := ⟨rfl, rfl⟩

/-- The table's bit numbering: a later word's bits count on from the first word's. -/
theorem test_decodeTableWord :
    decodeTableWord 64 0x0004800180000009 = some (.add 32768 32769 4) ∧
      decodeTableWord 16 0x41B0013 = some (.out 0) := by decide

/-! ### Single steps -/

/-- Whether an answer is a next state with a given property. -/
def nextWith (r : Result) (p : State → Bool) : Bool :=
  match r with
  | .next t => p t
  | .fault _ => false
  | .refused _ => false

/-- The reset state with words stored from cell `pc` on, and the pc there. -/
def at_ (pc : Nat) (ws : List Word) : State :=
  { State.reset with mem := imageFrom pc ws, pc := BitVec.ofNat 16 pc }

/-- A state with register `i` set. -/
def withReg (s : State) (i : Fin 8) (v : Word) : State := s.setReg i v

/-- V41.2: the value is not reduced. -/
theorem test_set_copies_whole : nextWith (step (withReg (at_ 0 [1, 32769, 32768]) 0 40000))
    (fun t => decide (t.pc = 3 ∧ t.reg 1 = 40000 ∧ t.runState = .cont)) = true := by decide

/-- V41.6: the destination test comes first. -/
theorem test_set_bad_register : nextWith (step (at_ 0 [1, 5, 40000]))
    (fun t => decide (t.runState = .error (.illegalRegisterTarget 5) ∧ t.pc = 0 ∧ t.cell 5 = 0)) = true := by decide

/-- V41.8. -/
theorem test_push_on_top : nextWith (step { at_ 0 [2, 32767] with stack := [1, 2] })
    (fun t => decide (t.pc = 2 ∧ t.stack = [1, 2, 32767])) = true := by decide

/-- V41.9. -/
theorem test_pop_top : nextWith (step { at_ 0 [3, 32770] with stack := [1, 2] })
    (fun t => decide (t.pc = 2 ∧ t.reg 2 = 2 ∧ t.stack = [1])) = true := by decide

/-- V41.11. -/
theorem test_pop_underflow : nextWith (step (at_ 0 [3, 32768]))
    (fun t => decide (t.runState = .error .stackUnderflow ∧ t.pc = 0)) = true := by decide

/-- V42.2: no reduction before comparing. -/
theorem test_eq_full_width : nextWith (step (withReg (withReg (at_ 0 [4, 32768, 32769, 0]) 0 7) 1 32768))
    (fun t => decide (t.pc = 4 ∧ t.reg 0 = 0)) = true := by decide

/-- V42.7. -/
theorem test_gt_unsigned : nextWith (step (withReg (at_ 0 [5, 32768, 32769, 32767]) 1 40000))
    (fun t => decide (t.pc = 4 ∧ t.reg 0 = 1)) = true := by decide

/-- V42.6: the order of the operands. -/
theorem test_gt_order : nextWith (step (withReg (at_ 0 [5, 32768, 0, 32767]) 0 7))
    (fun t => decide (t.reg 0 = 0)) = true := by decide

/-- V43.2. -/
theorem test_jmp_through_register : nextWith (step (withReg (at_ 0 [6, 32768]) 0 32770))
    (fun t => decide (t.pc = 32770)) = true := by decide

/-- V43.6: a target word that is not looked at. -/
theorem test_jt_not_taken : nextWith (step (at_ 20 [7, 32768, 40000]))
    (fun t => decide (t.pc = 23 ∧ t.runState = .cont)) = true := by decide

/-- V43.11. -/
theorem test_jf_taken : nextWith (step (withReg (at_ 20 [8, 32771, 32772]) 4 600))
    (fun t => decide (t.pc = 600)) = true := by decide

/-- V44.5: the exact sum of two values from 32768 up. -/
theorem test_add_exact : nextWith (step (withReg (withReg (at_ 0 [9, 32768, 32769, 32770]) 1 65535) 2 65535))
    (fun t => decide (t.reg 0 = 32766 ∧ t.pc = 4)) = true := by decide

/-- V44.3: source and destination are the same register. -/
theorem test_add_same_register : nextWith (step (withReg (at_ 0 [9, 32768, 32768, 1]) 0 5))
    (fun t => decide (t.reg 0 = 6)) = true := by decide

/-- V44.7. -/
theorem test_mult_exact : nextWith (step (at_ 0 [10, 32768, 32767, 32767]))
    (fun t => decide (t.reg 0 = 1)) = true := by decide

/-- V44.41: a remainder is not reduced. -/
theorem test_mod_unreduced : nextWith (step (withReg (withReg (at_ 0 [11, 32768, 32769, 32770]) 1 40000) 2 50000))
    (fun t => decide (t.reg 0 = 40000)) = true := by decide

/-- V44.16. -/
theorem test_mod_by_zero : nextWith (step (withReg (at_ 0 [11, 32768, 5, 0]) 0 9))
    (fun t => decide (t.runState = .error .divideByZero ∧ t.reg 0 = 9 ∧ t.pc = 0)) = true := by decide

/-- V44.22. -/
theorem test_and_clears_bit15 :
    nextWith (step (withReg (withReg (at_ 0 [12, 32768, 32769, 32770]) 1 65535) 2 65535))
      (fun t => decide (t.reg 0 = 32767)) = true := by decide

/-- V44.28. -/
theorem test_or_clears_bit15 : nextWith (step (withReg (at_ 0 [13, 32768, 32769, 1]) 1 40000))
    (fun t => decide (t.reg 0 = 7233)) = true := by decide

/-- V44.35. -/
theorem test_not_fifteen_bits : nextWith (step (withReg (at_ 0 [14, 32768, 32769]) 1 40000))
    (fun t => decide (t.reg 0 = 25535 ∧ t.pc = 3)) = true := by decide

/-- V45.3: the effective address is a register cell. -/
theorem test_rmem_register_cell : nextWith (step (withReg (withReg (at_ 0 [15, 32768, 32769]) 1 32770) 2 77))
    (fun t => decide (t.reg 0 = 77)) = true := by decide

/-- V45.4. -/
theorem test_rmem_past_array : nextWith (step (withReg (at_ 0 [15, 32768, 32769]) 1 32776))
    (fun t => decide (t.runState = .error (.addressOutOfRange 32776) ∧ t.pc = 0)) = true := by decide

/-- V45.11: the first operand is resolved. -/
theorem test_wmem_resolves_address :
    nextWith (step (withReg (withReg (at_ 0 [16, 32768, 32769]) 0 200) 1 40000))
      (fun t => decide (t.cell 200 = 40000 ∧ t.reg 0 = 200 ∧ t.pc = 3)) = true := by decide

/-- Part 3 of the vectors: the second operand is tested before the address. -/
theorem test_wmem_operand_before_address : nextWith (step (withReg (at_ 0 [16, 32768, 40000]) 0 40000))
    (fun t => decide (t.runState = .error (.invalidOperand 40000))) = true := by decide

/-- V43.13. -/
theorem test_call_pushes_next : nextWith (step { withReg (at_ 10 [17, 32768]) 0 300 with stack := [5] })
    (fun t => decide (t.pc = 300 ∧ t.stack = [5, 12])) = true := by decide

/-- V43.15. -/
theorem test_ret_pops : nextWith (step { at_ 100 [18] with stack := [12] })
    (fun t => decide (t.pc = 12 ∧ t.stack = [])) = true := by decide

/-- V43.16. -/
theorem test_ret_halts : nextWith (step (at_ 100 [18]))
    (fun t => decide (t.runState = .halt ∧ t.pc = 100)) = true := by decide

/-- V46.2: an `Out` does not drain. -/
theorem test_out_appends : nextWith (step { withReg (at_ 0 [19, 32768]) 0 10 with outbuf := [72] })
    (fun t => decide (t.pc = 2 ∧ t.outbuf = [72, 10])) = true := by decide

/-- V46.3: the buffer is kept at a fault of `Out`. -/
theorem test_out_fault_keeps_buffer : nextWith (step { at_ 0 [19, 32776] with outbuf := [72] })
    (fun t => decide (t.runState = .error (.invalidOperand 32776) ∧ t.outbuf = [72])) = true := by decide

/-- V46.11. -/
theorem test_in_stores_code : nextWith (step { at_ 0 [20, 32768] with inq := [40000, 10] })
    (fun t => decide (t.pc = 2 ∧ t.reg 0 = 40000 ∧ t.inq = [10])) = true := by decide

/-- V46.7: a bad destination faults before the queue is looked at. -/
theorem test_in_bad_destination : nextWith (step (at_ 0 [20, 40000]))
    (fun t => decide (t.runState = .error (.addressOutOfRange 40000))) = true := by decide

/-- V47.2: the drain in front of `Halt`. -/
theorem test_halt_drains_first : nextWith (step { at_ 7 [0] with outbuf := [65] })
    (fun t => decide (t.runState = .bufferedOutput [65] ∧ t.outbuf = [] ∧ t.pc = 7)) = true := by decide

/-- V47.1. -/
theorem test_halt : nextWith (step (at_ 7 [0])) (fun t => decide (t.runState = .halt ∧ t.pc = 7)) = true := by decide

/-- V40.8: a step from BufferedOutput executes in the same call. -/
theorem test_noop_after_output : nextWith (step { at_ 0 [21] with runState := .bufferedOutput [65] })
    (fun t => decide (t.pc = 1 ∧ t.runState = .cont)) = true := by decide

/-- V47.6. -/
theorem test_unknown_faults : nextWith (step (at_ 0 [65535, 1, 2]))
    (fun t => decide (t.runState = .error (.unknownOpcode 65535) ∧ t.pc = 0)) = true := by decide

/-- V40.3: an instruction held in the registers. -/
theorem test_fetch_from_registers : nextWith (step (at_ 32772 [9, 32768, 3, 4]))
    (fun t => decide (t.pc = 32776 ∧ t.reg 0 = 7)) = true := by decide

/-- V40.2 and V40.6: a decode failure, with output pending. -/
theorem test_decode_failure_keeps_output : nextWith (step { at_ 32773 [9, 1, 1] with outbuf := [65] })
    (fun t => decide (t.runState = .error (.malformedInstruction 32773) ∧ t.outbuf = [65])) = true := by decide

/-- V40.12: an instruction across the boundary of memory and registers. -/
theorem test_fetch_across_boundary : nextWith (step (at_ 32765 [9, 100, 7, 8]))
    (fun t => decide (t.pc = 32769 ∧ t.cell 100 = 15)) = true := by decide

/-- R31, R171: the code, the recorded value and the message of a fault. -/
theorem test_fault_record :
    Cause.code .divideByZero = 8 ∧ Cause.recorded .divideByZero = none ∧
      Cause.recorded (.addressOutOfRange 40000) = some 40000 ∧
      RunState.message (.error .stackUnderflow) = some (Config.errorText .stackUnderflow) := ⟨rfl, rfl, rfl, rfl⟩

/-! ### Host operations -/

/-- V70.1. -/
theorem test_construct_bytes : nextWith
    (constructBytes [0x09, 0x00, 0x00, 0x80, 0x01, 0x80, 0x04, 0x00, 0x13, 0x00, 0x00, 0x80, 0x00, 0x00])
    (fun t => decide (t = { State.reset with mem := imageFrom 0 [9, 32768, 32769, 4, 19, 32768, 0] })) = true := by
  decide

/-- V70.3. -/
theorem test_odd_bytes_refused : constructBytes [0x13, 0x00, 0x41] = .refused .oddByteCount := rfl

/-- V46.14. -/
theorem test_supplyInput :
    supplyInput [65, 70000] { State.reset with inq := [7] } = .refused (.inputCodeTooWide 70000) ∧
      supplyInput [65, 66] { State.reset with inq := [7] } = .next { State.reset with inq := [7, 65, 66] } :=
  ⟨rfl, rfl⟩

/-- V46.13. -/
theorem test_readRegisters :
    readRegisters { State.reset with mem := imageFrom 32768 [1, 2, 3, 4, 5, 6, 7, 40000], runState := .halt } =
      [1, 2, 3, 4, 5, 6, 7, 40000] := by decide

/-- T1: `Run` from the loaded program returns after three steps. -/
theorem test_run_scenario_1 :
    (runWithin 3 (at_ 0 [9, 32768, 32769, 4, 19, 32768, 0])).map (fun t => (t.runState, t.reg 0)) =
      some (.bufferedOutput [4], 4) := by decide

/-! ### Witnesses: the hypotheses of the statements can be met -/

/-- Boundary operand words: the last literal, the first and last register, the first invalid word. -/
theorem witness_operand_words :
    InArray 0 ∧ InArray 32767 ∧ InArray 32768 ∧ InArray 32775 ∧ ¬ InArray 32776 ∧ ¬ InArray 65535 := by decide

theorem witness_DecodeAtReadsTheArray :
    32776 ≤ (32776 : Word).toNat ∧
    ((32775 : Word).toNat < 32776 ∧ 22 ≤ ((at_ 32775 [22]).mem.read 32775).toNat) ∧
    ((32775 : Word).toNat < 32776 ∧ ((at_ 32775 [19]).mem.read 32775).toNat < 22 ∧
      32776 ≤ 32775 + opcodeArity ((at_ 32775 [19]).mem.read 32775).toNat) ∧
    ((32775 : Word).toNat < 32776 ∧ ((at_ 32775 [21]).mem.read 32775).toNat < 22 ∧
      32775 + opcodeArity ((at_ 32775 [21]).mem.read 32775).toNat < 32776) := by decide

theorem witness_HaltAndErrorAbsorbSteps :
    (State.reset.setRunState .halt).runState = .halt ∧
      (State.reset.setRunState (.error .stackUnderflow)).runState = .error .stackUnderflow := by decide

theorem witness_InputNeededWaitsForTheQueue :
    ({ State.reset with runState := .inputNeeded } : State).inq = [] ∧
      ({ State.reset with runState := .inputNeeded, inq := [10] } : State).inq ≠ [] ∧
      ({ at_ 32774 [20, 32775] with runState := .inputNeeded, inq := [10] } : State).inq = 10 :: [] := by decide

theorem witness_InputNeeded_at_an_In :
    decodeAt (at_ 32774 [20, 32775]).mem 32774 = .ok (.inp 32775, 2) ∧ InArray 32775 ∧
      (at_ 32774 [20, 32775]).outbuf = [] := ⟨rfl, by decide, rfl⟩

theorem witness_BufferedOutputMovesToContinue :
    ({ State.reset with runState := .bufferedOutput [65] } : State).runState = .bufferedOutput [65] ∧
      State.reset.runState = .cont := by decide

theorem witness_DecodeFailureRaisesMalformedInstruction :
    (beginStep (at_ 32775 [19]) = some (at_ 32775 [19]) ∧
      decodeAt (at_ 32775 [19]).mem 32775 = .error (.truncated 19)) ∧
    (beginStep (at_ 32775 [21]) = some (at_ 32775 [21]) ∧
      decodeAt (at_ 32775 [21]).mem 32775 = .ok (.noop, 1)) := ⟨⟨rfl, rfl⟩, ⟨rfl, rfl⟩⟩

/-- An `Unknown` with output pending, an `Out` with output pending, a `Halt` with none. -/
theorem witness_PendingOutputDrainsBeforeNonOut :
    (beginStep { at_ 0 [22] with outbuf := [65] } = some { at_ 0 [22] with outbuf := [65] } ∧
      decodeAt (at_ 0 [22]).mem 0 = .ok (.unknown 22, 1) ∧ (Instr.unknown 22).opcodeWord ≠ 19) ∧
    (decodeAt (at_ 0 [19, 66]).mem 0 = .ok (.out 66, 2) ∧ (Instr.out 66).opcodeWord = 19) ∧
    (beginStep State.reset = some State.reset ∧ decodeAt State.reset.mem 0 = .ok (.halt, 1) ∧
      State.reset.outbuf = []) :=
  ⟨⟨rfl, rfl, by decide⟩, ⟨rfl, rfl⟩, rfl, rfl, rfl⟩

theorem witness_StepRunsTheDecodedInstruction :
    decodeAt (at_ 0 [20, 0]).mem 0 = .ok (.inp 0, 2) ∧ (at_ 0 [20, 0]).outbuf = [] ∧
      (at_ 0 [20, 0]).runState = .cont ∧
      ({ at_ 0 [20, 0] with runState := .inputNeeded, inq := [1] } : State).inq ≠ [] ∧
      decodeAt (at_ 0 [19, 65]).mem 0 = .ok (.out 65, 2) ∧ (Instr.out 65).isOut = true :=
  ⟨rfl, rfl, rfl, by decide, rfl, rfl⟩

/-- Each row of the transition table: absorbed, decode failure, drain, halt, suspension, completion. -/
theorem witness_RunStateTransitions :
    step (State.reset.setRunState .halt) = .next (State.reset.setRunState .halt) ∧
    nextWith (step (at_ 32775 [19])) (fun t => decide (t.runState = .error (.malformedInstruction 32775))) = true ∧
    nextWith (step { at_ 0 [21] with outbuf := [65] }) (fun t => decide (t.runState = .bufferedOutput [65])) = true ∧
    nextWith (step (at_ 0 [18])) (fun t => decide (t.runState = .halt)) = true ∧
    nextWith (step (at_ 0 [20, 32775])) (fun t => decide (t.runState = .inputNeeded)) = true ∧
    nextWith (step (at_ 0 [21])) (fun t => decide (t.runState = .cont)) = true :=
  ⟨rfl, by decide, by decide, by decide, by decide, by decide⟩

theorem witness_SetChecksItsRegisterFirst :
    (32767 : Word).toNat < 32768 ∧ 32776 ≤ (32776 : Word).toNat ∧
      (32768 ≤ (32775 : Word).toNat ∧ (32775 : Word).toNat < 32776 ∧ Running State.reset ∧
        nextWith (exec (.set 32775 40000) State.reset) (fun _ => true) = true) := by decide

theorem witness_SetCopiesItsValueToTheRegister :
    32768 ≤ (32768 : Word).toNat ∧ (32775 : Word).toNat < 32776 ∧ InArray 32767 := by decide

theorem witness_PopTakesTheTopOrUnderflows :
    InArray 32775 ∧ ({ State.reset with stack := [1, 2] } : State).stack = [1] ++ [2] ∧ State.reset.stack = [] := by
  decide

theorem witness_StackPrimitivesWorkAtTheEnd :
    (some 0 = some State.reset.stack.length ∧ InArray 32775) ∧ (some 1 ≠ some State.reset.stack.length) ∧
      (none ≠ some State.reset.stack.length) := by decide

theorem witness_FiniteStackOverflowsWhenFull :
    InArray 32775 ∧ ({ State.reset with stack := [7] } : State).stack.length = 1 ∧ State.reset.stack.length < 1 := by
  decide

/-- A taken and a not taken jump, through the last register. -/
theorem witness_JumpsMoveOnlyThePc :
    InArray 32775 ∧ (withReg State.reset 7 32768).valueOf 32775 ≠ 0 ∧ State.reset.valueOf 32775 = 0 ∧
      ¬ InArray 32776 := by decide

theorem witness_RetUndoesCall :
    Running State.reset ∧ nextWith (exec (.call 32767) State.reset) (fun t => decide (t.runState = .cont)) = true := by
  decide

theorem witness_ModWritesTheRemainderOrFaults :
    InArray 32775 ∧ State.reset.valueOf 1 ≠ 0 ∧ State.reset.valueOf 0 = 0 := by decide

theorem witness_RmemLoadsTheAddressedCell :
    InArray 32775 ∧ InArray ((withReg State.reset 7 32775).valueOf 32775) ∧
      ¬ InArray ((withReg State.reset 7 32776).valueOf 32775) := by decide

theorem witness_WmemStoresToTheAddressedCell :
    InArray 32767 ∧ InArray ((withReg State.reset 0 32775).valueOf 32768) ∧
      ¬ InArray ((withReg State.reset 0 32776).valueOf 32768) := by decide

/-- The values 0 to 127 are convertible; above them the predicate is open, so only the fault's premise is
left to whatever it says there. -/
theorem witness_OutAppendsConvertibleCharacters :
    InArray 127 ∧ charConvertible (State.reset.valueOf 127) = true ∧ (State.reset.valueOf 127).toNat < 128 := by
  decide

/-- Where the open predicate rejects a value, the fault clause of `Out` is met by it. -/
theorem witness_Out_unconvertible (h : Config.charConvertibleFrom128 128 = false) :
    InArray 128 ∧ charConvertible (State.reset.valueOf 128) = false := by
  refine ⟨by decide, ?_⟩
  show (decide ((128 : Word).toNat < 128) || Config.charConvertibleFrom128 128) = false
  rw [h]; rfl

theorem witness_InTakesTheFrontOrSuspends :
    InArray 32775 ∧ ({ State.reset with inq := [104, 10] } : State).inq = 104 :: [10] ∧ State.reset.inq = [] := by
  decide

theorem witness_NoopAdvancesOnly :
    Running (at_ 32775 [21]) ∧ decodeAt (at_ 32775 [21]).mem (at_ 32775 [21]).pc = .ok (.noop, 1) ∧
      (at_ 32775 [21]).outbuf = [] ∧ (at_ 32775 [21]).pc = 32775 ∧
      ({ at_ 32775 [21] with outbuf := [65] } : State).outbuf ≠ [] := ⟨rfl, rfl, rfl, rfl, by decide⟩

theorem witness_BadDestinationFaultsFirst :
    checkedDst (.pop 32776) = some 32776 ∧ 32776 ≤ (32776 : Word).toNat := by decide

/-- The second source of a `Wmem`, the first of an `Add`, the target of a taken jump. -/
theorem witness_InvalidSourcesFaultLeftToRight :
    (DestinationOk (.wmem 32775 32776) ∧ sourceWords (.wmem 32775 32776) = [32775] ++ 32776 :: [] ∧
      (∀ x ∈ [(32775 : Word)], InArray x) ∧ ¬ InArray 32776) ∧
    (DestinationOk (.add 32775 32776 1) ∧ sourceWords (.add 32775 32776 1) = [] ++ 32776 :: [1]) ∧
    (DestinationOk (.set 32775 32776) ∧ sourceWords (.set 32775 32776) = [] ++ 32776 :: []) ∧
    (State.reset.valueOf 1 ≠ 0 ∧ State.reset.valueOf 0 = 0) := by
  refine ⟨⟨⟨by simp [checkedDst], by simp⟩, by decide, by simp [InArray], by decide⟩,
    ⟨⟨by simp [checkedDst], by simp⟩, by decide⟩, ⟨⟨by simp [checkedDst], ?_⟩, by decide⟩, by decide, by decide⟩
  rintro d v h
  cases h
  decide

theorem witness_FaultsChangeOnlyTheRunState :
    Running State.reset ∧
    nextWith (exec (.pop 0) State.reset) (fun t => decide (t.runState = .error .stackUnderflow)) = true ∧
    nextWith (step { at_ 0 [3, 0] with runState := .bufferedOutput [65] })
      (fun t => decide (t.runState = .error .stackUnderflow)) = true := by decide

/-- A completed store beside the addressed cell, and a fault that stores nothing. -/
theorem witness_OnlyTheStoreTargetChanges :
    nextWith (exec (.wmem 32767 5) State.reset) (fun t => decide (t.cell 32767 = 5)) = true ∧
      storeTarget (.wmem 32767 5) State.reset ≠ some 32768 ∧ storeTarget (.out 65) State.reset ≠ some 0 := by decide

theorem witness_StackAndQueuesChangeOnlyByTheirOwn :
    nextWith (exec .noop State.reset) (fun _ => true) = true ∧ usesStack .noop = false ∧
      usesInput .noop = false ∧ Instr.noop.isOut = false := by decide

theorem witness_NextPcDoesNotWrap :
    decodeAt (at_ 32772 [9, 1, 2, 3]).mem (at_ 32772 [9, 1, 2, 3]).pc = .ok (.add 1 2 3, 4) := rfl

theorem witness_ArithmeticResultsStayBelow32768 :
    Running State.reset ∧
    nextWith (exec (.not 32775 0) State.reset) (fun t => decide (t.runState = .cont)) = true ∧
    nextWith (exec (.mod 32775 32767 32767) State.reset) (fun t => decide (t.runState = .cont)) = true ∧
    (State.reset.valueOf 32767).toNat < 32768 := by decide

theorem witness_StoreIsSeenByTheNextFetch :
    Running State.reset ∧
    nextWith (exec (.wmem 32767 22) State.reset)
      (fun t => decide (t.runState = .cont ∧ decodeTableWord 16 22 = some (.unknown 22))) = true ∧
    (32767 : Word) = State.reset.valueOf 32767 ∧ 22 ≤ (State.reset.valueOf 22).toNat := by decide

theorem witness_CanonicalMemoriesAreDeterminedByTheirCells :
    Memory.wf [(0, 5), (32775, 1)] ∧ ∀ a, Memory.read [(0, 5), (32775, 1)] a = Memory.read [(0, 5), (32775, 1)] a :=
  ⟨by decide, fun _ => rfl⟩

/-- The reset state meets each part of the invariant, and so does a state with a delivered text. -/
theorem witness_StepKeepsTheInvariant :
    ∃ s t : State, Inv s ∧ step s = .next t ∧ s.runState = .bufferedOutput [65] := by
  refine ⟨{ at_ 0 [21] with runState := .bufferedOutput [65] }, _, ⟨?_, ?_, ⟨by simp [at_, State.reset], ?_⟩, ?_⟩, rfl, rfl⟩
  · intro t h; cases h; exact ⟨by simp, rfl⟩
  · intro h; cases h
  · intro t h v hv
    cases h
    simp only [List.mem_singleton] at hv
    subst hv
    decide
  · show Memory.wf _
    decide

theorem witness_ReachableStatesMeetTheInvariant : Reachable State.reset :=
  .construct (program := []) rfl

theorem witness_SuspendedInResumesAndCompletes :
    Running (at_ 32774 [20, 32775]) ∧
    decodeAt (at_ 32774 [20, 32775]).mem (at_ 32774 [20, 32775]).pc = .ok (.inp 32775, 2) ∧ InArray 32775 ∧
    (at_ 32774 [20, 32775]).outbuf = [] ∧ (at_ 32774 [20, 32775]).inq = [] ∧
    (∀ x ∈ 65535 :: [10], x ≤ 65535) := ⟨rfl, rfl, by decide, rfl, rfl, by decide⟩

theorem witness_OnlyConstructLeavesHaltOrError :
    (State.reset.setRunState .halt).runState = .halt ∧
    hostApply (.supplyInput [65535]) (State.reset.setRunState .halt) =
      .next { State.reset with runState := .halt, inq := [65535] } ∧
    construct [0] = .next State.reset := ⟨rfl, rfl, rfl⟩

/-- Both sides of the length bound, and both parities. -/
theorem witness_ConstructLoadsTheProgram :
    (List.replicate 32768 (21 : Word)).length ≤ 32768 ∧ 32768 < (List.replicate 32769 (21 : Word)).length := by
  simp only [List.length_replicate]; omega

theorem witness_ProgramBytesAreLittleEndian :
    ([0x13, 0x00, 0x41] : List Byte).length % 2 = 1 ∧ ([0x13, 0x00] : List Byte).length % 2 = 0 := by decide

theorem witness_SupplyInputAppendsOrIsRefused :
    (∀ c ∈ [65, 65535], c ≤ 65535) ∧ ∃ c ∈ [65, 65536], 65535 < c := by decide

/-- A state of each class; the reset state and an InputNeeded state with input both go on. -/
theorem witness_StoppedVerdictsDoNotStep :
    verdict (State.reset.setRunState .halt) = .completed ∧
    verdict (State.reset.setRunState (.error .divideByZero)) = .faulted .divideByZero ∧
    verdict (State.reset.setRunState .inputNeeded) = .waitsForHost ∧ verdict State.reset = .runs ∧
    verdict { State.reset with runState := .inputNeeded, inq := [10] } = .runs := by decide

end Sys2Proof.Tests
end

section
/-! SUPPORT. The equations of the stages of a step (40_step_protocol.md R81 to R87), what the decoder's
answers have in common, and the value of a source operand. -/

namespace Sys2Proof.Machine

/-! ### Stages 1 to 3 -/

theorem beginStep_of_halt {s : State} (h : s.runState = .halt) : beginStep s = none := by
  simp [beginStep, h]

theorem beginStep_of_error {s : State} {c : Cause} (h : s.runState = .error c) : beginStep s = none := by
  simp [beginStep, h]

theorem beginStep_of_inputNeeded_of_empty {s : State} (h : s.runState = .inputNeeded) (hq : s.inq = []) :
    beginStep s = none := by
  simp [beginStep, h, hq]

theorem beginStep_of_inputNeeded_of_nonempty {s : State} (h : s.runState = .inputNeeded) (hq : s.inq ≠ []) :
    beginStep s = some (resume s) := by
  simp [beginStep, h, hq]

theorem beginStep_of_bufferedOutput {s : State} {text : List Word} (h : s.runState = .bufferedOutput text) :
    beginStep s = some (resume s) := by
  simp [beginStep, h]

theorem beginStep_of_cont {s : State} (h : s.runState = .cont) : beginStep s = some s := by
  simp [beginStep, h]

theorem step_of_beginStep_none {s : State} (h : beginStep s = none) : step s = .next s := by
  simp [step, stepStages, h]

theorem step_of_beginStep_some {s u : State} (h : beginStep s = some u) : step s = fetchAndRun u := by
  simp [step, stepStages, h]

/-! ### Stages 4 to 6 -/

theorem fetchAndRun_of_reject {s : State} {r : DecodeReject} (h : decodeAt s.mem s.pc = .error r) :
    fetchAndRun s = raise (.malformedInstruction s.pc) s := by
  simp [fetchAndRun, h]

theorem fetchAndRun_of_decoded {s : State} {i : Instr} {n : Nat} (h : decodeAt s.mem s.pc = .ok (i, n)) :
    fetchAndRun s = drainOrExec i s := by
  simp [fetchAndRun, h]

theorem drainOrExec_of_pending {s : State} {i : Instr} (hi : i.isOut = false) (hb : s.outbuf ≠ []) :
    drainOrExec i s = .next (drain s) := by
  simp [drainOrExec, hi, hb]

theorem drainOrExec_of_isOut_or_empty {s : State} {i : Instr} (h : i.isOut = true ∨ s.outbuf = []) :
    drainOrExec i s = exec i s := by
  rcases h with hi | hb
  · simp [drainOrExec, hi]
  · simp [drainOrExec, hb]

/-! ### The decoder's answers -/

theorem decodeOne_ok {op : Word} {f : Word → Instr} {ops : List Word} {i : Instr} {n : Nat}
    (h : decodeOne op f ops = .ok (i, n)) : n = 2 ∧ ∃ a rest, ops = a :: rest ∧ i = f a := by
  unfold decodeOne at h
  split at h
  · cases h; exact ⟨rfl, _, _, rfl, rfl⟩
  · cases h

theorem decodeTwo_ok {op : Word} {f : Word → Word → Instr} {ops : List Word} {i : Instr} {n : Nat}
    (h : decodeTwo op f ops = .ok (i, n)) : n = 3 ∧ ∃ a b rest, ops = a :: b :: rest ∧ i = f a b := by
  unfold decodeTwo at h
  split at h
  · cases h; exact ⟨rfl, _, _, _, rfl, rfl⟩
  · cases h

theorem decodeThree_ok {op : Word} {f : Word → Word → Word → Instr} {ops : List Word} {i : Instr} {n : Nat}
    (h : decodeThree op f ops = .ok (i, n)) :
    n = 4 ∧ ∃ a b c rest, ops = a :: b :: c :: rest ∧ i = f a b c := by
  unfold decodeThree at h
  split at h
  · cases h; exact ⟨rfl, _, _, _, _, rfl, rfl⟩
  · cases h

/-- The opcode map answers instructions only: `Unknown` never carries a defined opcode (R66). -/
theorem decodeOpcode_wf {w : Word} {ops : List Word} {i : Instr} {n : Nat}
    (h : decodeOpcode w ops = .ok (i, n)) : i.wf = true := by
  unfold decodeOpcode at h
  split at h
  case h_1 | h_19 | h_22 => cases h; rfl
  case h_3 | h_4 | h_7 | h_18 | h_20 | h_21 => obtain ⟨-, _, _, -, rfl⟩ := decodeOne_ok h; rfl
  case h_2 | h_8 | h_9 | h_15 | h_16 | h_17 => obtain ⟨-, _, _, _, -, rfl⟩ := decodeTwo_ok h; rfl
  case h_5 | h_6 | h_10 | h_11 | h_12 | h_13 | h_14 =>
    obtain ⟨-, _, _, _, _, -, rfl⟩ := decodeThree_ok h; rfl
  case h_23 =>
    cases h
    have hw : 22 ≤ w.toNat := by simp only [imp_false] at *; omega
    simpa [Instr.wf] using hw

theorem decodeWindow_wf {ws : List Word} {i : Instr} {n : Nat} (h : decodeWindow ws = .ok (i, n)) :
    i.wf = true := by
  cases ws with
  | nil => cases h
  | cons w ops => exact decodeOpcode_wf h

theorem decodeAt_wf {m : Memory} {p : Word} {i : Instr} {n : Nat} (h : decodeAt m p = .ok (i, n)) :
    i.wf = true :=
  decodeWindow_wf h

/-- The decoder's bit `is_out` (R68) marks the opcode word 19; well-formedness excludes `Unknown(19)`. -/
theorem isOut_iff_opcodeWord {i : Instr} (h : i.wf = true) : i.isOut = true ↔ i.opcodeWord = 19 := by
  cases i with
  | unknown raw =>
    have hraw : 22 ≤ raw.toNat := by simpa [Instr.wf] using h
    have hne : raw ≠ 19 := by rintro rfl; revert hraw; decide
    exact ⟨fun h => Bool.noConfusion h, fun h => absurd h hne⟩
  | _ => simp [Instr.isOut, Instr.opcodeWord]

/-! ### Source operands -/

/-- Resolve on a word that names something gives its value (R64, R88). -/
theorem resolve_of_inArray (s : State) {w : Word} (h : InArray w) : resolve s w = .ok (s.valueOf w) := by
  have hw : w.toNat < 32776 := h
  rw [resolve_eq, State.valueOf, if_pos hw]
  split <;> rfl

/-- Resolve on any other word is a fault (R88). -/
theorem resolve_of_not_inArray (s : State) {w : Word} (h : ¬ InArray w) :
    resolve s w = .error (.invalidOperand w) := by
  have hw : ¬ w.toNat < 32776 := h
  rw [resolve_eq, if_neg (by omega), if_neg hw]

/-! ### Single instructions -/

/-- `In` with a legal destination takes the front of a non-empty queue (R151). -/
theorem exec_inp_of_nonempty {s : State} {dst c : Word} {rest : List Word} (hd : InArray dst)
    (hq : s.inq = c :: rest) :
    exec (.inp dst) s = .next (({ s with inq := rest }.setCell dst.toNat c).advance (.inp dst)) := by
  have hok : checkDst dst = .ok () := if_pos hd
  have hpop : popInput s = some (c, { s with inq := rest }) := by simp [popInput, hq]
  simp [exec, execInp, hok, hpop]

/-- `Set` outside the registers ends at its first test (R90). -/
theorem exec_set_of_illegal (s : State) {dst : Word} (val : Word)
    (hd : ¬ (32768 ≤ dst.toNat ∧ dst.toNat < 32776)) :
    exec (.set dst val) s = raise (.illegalRegisterTarget dst) s := by
  have herr : checkReg dst = .error (.illegalRegisterTarget dst) := if_neg hd
  simp [exec, execSet, herr]

/-- `Set` on a register goes on to resolve its value (R90, R100). -/
theorem exec_set_of_legal (s : State) {dst : Word} (val : Word)
    (hd : 32768 ≤ dst.toNat ∧ dst.toNat < 32776) :
    exec (.set dst val) s =
      finish s (resolve s val >>= fun v => pure ((s.setCell dst.toNat v).advance (.set dst val))) := by
  have hok : checkReg dst = .ok () := if_pos hd
  simp [exec, execSet, hok]

end Sys2Proof.Machine
end

section
/-! SUPPORT. The proofs of the statements about the step protocol (40_step_protocol.md). -/

namespace Sys2Proof.Machine

/-- Settles O7: stages 1 to 3 end the step at once in Halt and in Error. -/
theorem haltAndErrorAbsorbSteps : Obligations.HaltAndErrorAbsorbSteps := by
  rintro s (h | ⟨c, h⟩)
  · exact step_of_beginStep_none (beginStep_of_halt h)
  · exact step_of_beginStep_none (beginStep_of_error h)

/-- Settles O8: the wait and the resumption are stage 2; the suspended `In` then meets a queue that is
not empty. -/
theorem inputNeededWaitsForTheQueue : Obligations.InputNeededWaitsForTheQueue := by
  intro s hs
  have goesOn : s.inq ≠ [] → step s = fetchAndRun (resume s) := fun hq =>
    step_of_beginStep_some (beginStep_of_inputNeeded_of_nonempty hs hq)
  refine ⟨fun hq => step_of_beginStep_none (beginStep_of_inputNeeded_of_empty hs hq), goesOn, ?_⟩
  intro dst c rest hdec hd hb hq
  have hstep : step s = exec (.inp dst) (resume s) := by
    rw [goesOn (by simp [hq]), fetchAndRun_of_decoded (s := resume s) hdec,
      drainOrExec_of_isOut_or_empty (s := resume s) (.inr hb)]
  have hexec := exec_inp_of_nonempty (s := resume s) hd hq
  exact ⟨_, hstep.trans hexec, ⟨cell_setCell_same _ _ _, fun a ha => cell_setCell_other _ c ha⟩,
    rfl, rfl, rfl, hb, rfl⟩

/-- Settles O9: stage 3 resumes a machine that delivered its text, and leaves Continue as it is. -/
theorem bufferedOutputMovesToContinue : Obligations.BufferedOutputMovesToContinue := fun _ =>
  ⟨fun _ h => step_of_beginStep_some (beginStep_of_bufferedOutput h),
    fun h => step_of_beginStep_some (beginStep_of_cont h)⟩

/-- Settles O10: stage 4 stands before the drain of stage 5. -/
theorem decodeFailureRaisesMalformedInstruction : Obligations.DecodeFailureRaisesMalformedInstruction := by
  intro s u hu
  rw [step_of_beginStep_some hu]
  exact ⟨fun _ hr => fetchAndRun_of_reject hr, fun _ _ hi => fetchAndRun_of_decoded hi⟩

/-- Settles O11: stage 5 tests the decoder's `is_out`, which on decoded instructions is opcode word 19;
the drained state holds the same cells and pc, so its step decodes the same instruction. -/
theorem pendingOutputDrainsBeforeNonOut : Obligations.PendingOutputDrainsBeforeNonOut := by
  intro s u i n hu hdec
  have hout : i.isOut = true ↔ i.opcodeWord = 19 := isOut_iff_opcodeWord (decodeAt_wf hdec)
  have hstep : step s = drainOrExec i u :=
    (step_of_beginStep_some hu).trans (fetchAndRun_of_decoded hdec)
  constructor
  · intro hop hb
    have hi : i.isOut = false := Bool.eq_false_iff.2 fun h => hop (hout.1 h)
    have hnext : step (drain u) = exec i (resume (drain u)) := by
      rw [step_of_beginStep_some (beginStep_of_bufferedOutput (drain_runState u)),
        fetchAndRun_of_decoded (s := resume (drain u)) hdec, drainOrExec_of_isOut_or_empty (.inr rfl)]
    exact ⟨hstep.trans (drainOrExec_of_pending hi hb), hnext⟩
  · intro h
    exact hstep.trans (drainOrExec_of_isOut_or_empty (h.imp_left hout.2))

/-- Settles O14: outside the registers the first test ends the instruction; inside, the one fault left is
that of the value operand. -/
theorem setChecksItsRegisterFirst : Obligations.SetChecksItsRegisterFirst := by
  intro s dst val
  refine ⟨fun hd => exec_set_of_illegal s val (by omega), fun hlo hhi hs t d ht => ?_⟩
  rw [exec_set_of_legal s val ⟨hlo, hhi⟩] at ht
  by_cases hv : InArray val
  · rw [resolve_of_inArray s hv] at ht
    cases ht
    have hrun : s.runState = .cont := hs
    simp [hrun]
  · rw [resolve_of_not_inArray s hv] at ht
    cases ht
    simp

end Sys2Proof.Machine
end

section
/-! SUPPORT. The proofs of the statements about the system instructions (47_system.md), and the facts
about the end of the array they rest on. -/

namespace Sys2Proof.Machine

/-- Past the array the window is empty (R85). -/
theorem decodeAt_of_not_inArray (m : Memory) {p : Word} (h : ¬ InArray p) :
    decodeAt m p = .error .emptyWindow := by
  have hw : Memory.window m p.toNat (1 + Config.maxArity) = [] := if_neg h
  rw [decodeAt, hw]
  rfl

/-- A pc that ran off the array faults at the next fetch (R84, R85). -/
theorem step_of_pc_not_inArray {s : State} (hs : Running s) (h : ¬ InArray s.pc) :
    step s = raise (.malformedInstruction s.pc) s :=
  (step_of_beginStep_some (beginStep_of_cont hs)).trans
    (fetchAndRun_of_reject (decodeAt_of_not_inArray s.mem h))

theorem exec_noop (s : State) : exec .noop s = .next { s with pc := s.pc + 1 } := rfl

/-- Settles O32: `Noop` is not `Out`, so stage 5 drains before it; executed at the last cell it leaves a
pc past the array, where the next fetch finds the empty window. -/
theorem noopAdvancesOnly : Obligations.NoopAdvancesOnly := by
  refine ⟨fun _ => rfl, rfl, fun s => ⟨⟨_, exec_noop s, fun _ => rfl, rfl, rfl, rfl, rfl, rfl⟩, ?_⟩⟩
  intro hs hdec
  have hstep : step s = drainOrExec .noop s :=
    (step_of_beginStep_some (beginStep_of_cont hs)).trans (fetchAndRun_of_decoded hdec)
  have hadvance : s.outbuf = [] → step s = .next { s with pc := s.pc + 1 } := fun hb =>
    (hstep.trans (drainOrExec_of_isOut_or_empty (.inr hb))).trans (exec_noop s)
  refine ⟨hadvance, fun hb => hstep.trans (drainOrExec_of_pending rfl hb), fun hb hpc => ?_⟩
  have hpc' : s.pc + 1 = 32776 := by rw [hpc]; rfl
  rw [hpc'] at hadvance
  exact ⟨_, hadvance hb, rfl, step_of_pc_not_inArray hs (by decide : ¬ InArray 32776)⟩

end Sys2Proof.Machine
end

section
/-! SUPPORT. The proofs of the statements about the end of execution (60_exceptions.md): what a host
operation does to a stopped machine, what a construction leaves, and the classes of outcome. -/

namespace Sys2Proof.Machine

/-! ### The image of a program -/

/-- An image holds nothing below its first cell (R200). -/
theorem read_imageFrom_of_lt {a b : Nat} (ws : List Word) (h : a < b) : Memory.read (imageFrom b ws) a = 0 :=
  read_eq_zero_of_unlisted fun c hc => by
    have hc' : b ≤ c.1 := (mem_imageFrom hc).1
    omega

/-- Where nothing else is listed at the cell, an entry in front gives the value it was made of. -/
theorem read_cellEntry_append_same {m : Memory} {a : Nat} (v : Word) (h : Memory.read m a = 0) :
    Memory.read (cellEntry a v ++ m) a = v := by
  rw [read_append]
  split
  · exact read_cellEntry_same a v
  · rename_i hnone
    by_cases hv : v = 0
    · rw [h, hv]
    · have hlisted : (a, v) ∈ cellEntry a v := by
        rw [cellEntry, if_neg hv]
        exact List.mem_singleton_self _
      exact absurd ⟨(a, v), hlisted, rfl⟩ hnone

/-- An entry in front is not seen from another cell. -/
theorem read_cellEntry_append_other (m : Memory) {a b : Nat} (v : Word) (h : b ≠ a) :
    Memory.read (cellEntry a v ++ m) b = Memory.read m b := by
  rw [read_append, if_neg]
  rintro ⟨c, hc, rfl⟩
  obtain ⟨rfl, -⟩ := mem_cellEntry hc
  exact h rfl

/-- The image of a word sequence holds its words in order and 0 past its end (R200). -/
theorem read_imageFrom (ws : List Word) (a k : Nat) :
    Memory.read (imageFrom a ws) (a + k) = ws.getD k 0 := by
  induction ws generalizing a k with
  | nil => rfl
  | cons w ws ih =>
    cases k with
    | zero => exact read_cellEntry_append_same w (read_imageFrom_of_lt ws (Nat.lt_succ_self a))
    | succ k =>
      have hpast : a + (k + 1) = a + 1 + k := by omega
      calc Memory.read (imageFrom a (w :: ws)) (a + (k + 1))
          = Memory.read (imageFrom (a + 1) ws) (a + (k + 1)) :=
            read_cellEntry_append_other _ w (by omega)
        _ = ws.getD k 0 := by rw [hpast, ih]

/-! ### Host operations -/

/-- A construction that is not refused answers the reset state with the program's image as its memory
(R200, R202). -/
theorem construct_next {program : List Word} {t : State} (h : construct program = .next t) :
    program.length ≤ Config.memWords ∧ t = { State.reset with mem := imageFrom 0 program } := by
  unfold construct at h
  split at h
  · cases h; exact ⟨by assumption, rfl⟩
  · cases h

/-- `SupplyInput` that is not refused lengthens the input queue and changes nothing else (R155). -/
theorem supplyInput_next {codes : List Nat} {s t : State} (h : supplyInput codes s = .next t) :
    t = { s with inq := s.inq ++ codes.map (BitVec.ofNat 16) } := by
  unfold supplyInput at h
  split at h
  · cases h
  · cases h; rfl

/-- Settles O51: a step is absorbed by a stopped machine, and the other host operations touch the queues
only, in any run-state. -/
theorem onlyConstructLeavesHaltOrError : Obligations.OnlyConstructLeavesHaltOrError := by
  refine ⟨fun op s t hstop ht => ?_, fun program t ht => ?_⟩
  · cases op with
    | step =>
      cases (haltAndErrorAbsorbSteps s hstop).symm.trans ht
      exact ⟨rfl, rfl, rfl, rfl⟩
    | supplyInput codes =>
      obtain rfl := supplyInput_next ht
      exact ⟨rfl, rfl, rfl, rfl⟩
    | flushOutput => cases ht; exact ⟨rfl, rfl, rfl, rfl⟩
    | readRegisters => cases ht; exact ⟨rfl, rfl, rfl, rfl⟩
  · obtain ⟨-, rfl⟩ := construct_next ht
    refine ⟨rfl, rfl, rfl, rfl, rfl, fun k => ?_⟩
    simpa [State.cell] using read_imageFrom program 0 k

/-! ### The classes of outcome -/

theorem verdict_of_halt {s : State} (h : s.runState = .halt) : verdict s = .completed := by
  simp [verdict, h]

theorem verdict_of_error {s : State} {c : Cause} (h : s.runState = .error c) : verdict s = .faulted c := by
  simp [verdict, h]

theorem verdict_of_inputNeeded_of_empty {s : State} (h : s.runState = .inputNeeded) (hq : s.inq = []) :
    verdict s = .waitsForHost := by
  simp [verdict, h, hq]

theorem verdict_of_inputNeeded_of_nonempty {s : State} (h : s.runState = .inputNeeded) (hq : s.inq ≠ []) :
    verdict s = .runs := by
  simp [verdict, h, hq]

theorem verdict_of_bufferedOutput {s : State} {text : List Word} (h : s.runState = .bufferedOutput text) :
    verdict s = .runs := by
  simp [verdict, h]

theorem verdict_of_cont {s : State} (h : s.runState = .cont) : verdict s = .runs := by
  simp [verdict, h]

/-- The classes are those stages 1 to 3 tell apart (R81 to R83): each class with the run-states it is
made of and what `beginStep` answers there. -/
theorem verdict_cases (s : State) :
    (verdict s = .completed ∧ s.runState = .halt ∧ beginStep s = none) ∨
      (∃ c, verdict s = .faulted c ∧ s.runState = .error c ∧ beginStep s = none) ∨
      (verdict s = .waitsForHost ∧ (s.runState = .inputNeeded ∧ s.inq = []) ∧ beginStep s = none) ∨
      (verdict s = .runs ∧
        (s.runState = .cont ∨ (∃ t, s.runState = .bufferedOutput t) ∨ (s.runState = .inputNeeded ∧ s.inq ≠ [])) ∧
        beginStep s = some (resume s)) := by
  rcases beginStep_cases s with ⟨hb, h | ⟨c, h⟩ | ⟨h, hq⟩⟩ | ⟨hb, hgo⟩
  · exact .inl ⟨verdict_of_halt h, h, hb⟩
  · exact .inr (.inl ⟨c, verdict_of_error h, h, hb⟩)
  · exact .inr (.inr (.inl ⟨verdict_of_inputNeeded_of_empty h hq, ⟨h, hq⟩, hb⟩))
  · refine .inr (.inr (.inr ⟨?_, hgo, hb⟩))
    rcases hgo with h | ⟨_, h⟩ | ⟨h, hq⟩
    · exact verdict_of_cont h
    · exact verdict_of_bufferedOutput h
    · exact verdict_of_inputNeeded_of_nonempty h hq

/-- Settles O57: in the three stopped classes stages 1 and 2 end the step at once; in the last one the step
goes on to stage 4. -/
theorem stoppedVerdictsDoNotStep : Obligations.StoppedVerdictsDoNotStep := by
  intro s
  rcases verdict_cases s with ⟨hv, hr, hb⟩ | ⟨c, hv, hr, hb⟩ | ⟨hv, ⟨hr, hq⟩, hb⟩ | ⟨hv, hgo, hb⟩
  · simp [hv, hr, step_of_beginStep_none hb]
  · simp [hv, hr, step_of_beginStep_none hb]
  · simp [hv, hr, hq, step_of_beginStep_none hb]
  · have hstep : step s = fetchAndRun { s with runState := .cont } := step_of_beginStep_some hb
    rcases hgo with h | ⟨_, h⟩ | ⟨h, hq⟩
    · simp [hv, h, hstep]
    · simp [hv, h, hstep]
    · simp [hv, h, hq, hstep]

end Sys2Proof.Machine
end

section
/-! SUPPORT. The decoder and the encoder (30_encoding.md): the shape of each opcode word, the two
directions between a window and an instruction, and the statements about them. -/

namespace Sys2Proof.Machine

/-! ### Opcode words -/

/-- How the opcode map reads an opcode word (R63): the number of operand words it takes, the instruction
it makes of them, and that instruction's encoding. -/
inductive OpcodeShape (w : Word) : Prop
  | arity0 (i : Instr) (harity : opcodeArity w.toNat = 0) (henc : encode i = [w])
      (hdec : ∀ ops, decodeOpcode w ops = .ok (i, 1))
  | arity1 (f : Word → Instr) (harity : opcodeArity w.toNat = 1) (henc : ∀ a, encode (f a) = [w, a])
      (hdec : ∀ ops, decodeOpcode w ops = decodeOne w f ops)
  | arity2 (f : Word → Word → Instr) (harity : opcodeArity w.toNat = 2)
      (henc : ∀ a b, encode (f a b) = [w, a, b]) (hdec : ∀ ops, decodeOpcode w ops = decodeTwo w f ops)
  | arity3 (f : Word → Word → Word → Instr) (harity : opcodeArity w.toNat = 3)
      (henc : ∀ a b c, encode (f a b c) = [w, a, b, c])
      (hdec : ∀ ops, decodeOpcode w ops = decodeThree w f ops)

theorem opcodeArity_of_unknown {n : Nat} (h : 22 ≤ n) : opcodeArity n = 0 :=
  List.getD_eq_default _ _ h

theorem decodeOpcode_of_unknown {w : Word} (h : 22 ≤ w.toNat) (ops : List Word) :
    decodeOpcode w ops = .ok (.unknown w, 1) := by
  unfold decodeOpcode
  split
  case h_23 => rfl
  all_goals omega

/-- Every opcode word has its shape: the table of R63, and `Unknown` for the words from 22 up. -/
theorem opcodeShape (w : Word) : OpcodeShape w := by
  by_cases hw : 22 ≤ w.toNat
  · exact .arity0 (.unknown w) (opcodeArity_of_unknown hw) rfl (decodeOpcode_of_unknown hw)
  · obtain ⟨n, hn, rfl⟩ : ∃ n, n < 22 ∧ w = BitVec.ofNat 16 n := ⟨w.toNat, by omega, by simp⟩
    match n, hn with
    | 0, _ => exact .arity0 .halt rfl rfl fun _ => rfl
    | 1, _ => exact .arity2 .set rfl (fun _ _ => rfl) fun _ => rfl
    | 2, _ => exact .arity1 .push rfl (fun _ => rfl) fun _ => rfl
    | 3, _ => exact .arity1 .pop rfl (fun _ => rfl) fun _ => rfl
    | 4, _ => exact .arity3 .eq rfl (fun _ _ _ => rfl) fun _ => rfl
    | 5, _ => exact .arity3 .gt rfl (fun _ _ _ => rfl) fun _ => rfl
    | 6, _ => exact .arity1 .jmp rfl (fun _ => rfl) fun _ => rfl
    | 7, _ => exact .arity2 .jt rfl (fun _ _ => rfl) fun _ => rfl
    | 8, _ => exact .arity2 .jf rfl (fun _ _ => rfl) fun _ => rfl
    | 9, _ => exact .arity3 .add rfl (fun _ _ _ => rfl) fun _ => rfl
    | 10, _ => exact .arity3 .mult rfl (fun _ _ _ => rfl) fun _ => rfl
    | 11, _ => exact .arity3 .mod rfl (fun _ _ _ => rfl) fun _ => rfl
    | 12, _ => exact .arity3 .and rfl (fun _ _ _ => rfl) fun _ => rfl
    | 13, _ => exact .arity3 .or rfl (fun _ _ _ => rfl) fun _ => rfl
    | 14, _ => exact .arity2 .not rfl (fun _ _ => rfl) fun _ => rfl
    | 15, _ => exact .arity2 .rmem rfl (fun _ _ => rfl) fun _ => rfl
    | 16, _ => exact .arity2 .wmem rfl (fun _ _ => rfl) fun _ => rfl
    | 17, _ => exact .arity1 .call rfl (fun _ => rfl) fun _ => rfl
    | 18, _ => exact .arity0 .ret rfl rfl fun _ => rfl
    | 19, _ => exact .arity1 .out rfl (fun _ => rfl) fun _ => rfl
    | 20, _ => exact .arity1 .inp rfl (fun _ => rfl) fun _ => rfl
    | 21, _ => exact .arity0 .noop rfl rfl fun _ => rfl
    | n + 22, hn => omega

/-! ### The two directions -/

theorem encode_length (i : Instr) : (encode i).length = i.length := by
  cases i <;> rfl

theorem length_eq_of_encode {i : Instr} {ws : List Word} (h : encode i = ws) : i.length = ws.length := by
  rw [← encode_length, h]

/-- An answer is made of exactly the words it was read from (R60, R85). -/
theorem decodeOpcode_ok {w : Word} {ops : List Word} {i : Instr} {n : Nat}
    (h : decodeOpcode w ops = .ok (i, n)) : n = i.length ∧ ∃ rest, w :: ops = encode i ++ rest := by
  cases opcodeShape w with
  | arity0 j _ henc hdec =>
    cases (hdec ops).symm.trans h
    exact ⟨(length_eq_of_encode henc).symm, ops, by simp [henc]⟩
  | arity1 f _ henc hdec =>
    obtain ⟨rfl, a, rest, rfl, rfl⟩ := decodeOne_ok ((hdec ops).symm.trans h)
    exact ⟨(length_eq_of_encode (henc a)).symm, rest, by simp [henc]⟩
  | arity2 f _ henc hdec =>
    obtain ⟨rfl, a, b, rest, rfl, rfl⟩ := decodeTwo_ok ((hdec ops).symm.trans h)
    exact ⟨(length_eq_of_encode (henc a b)).symm, rest, by simp [henc]⟩
  | arity3 f _ henc hdec =>
    obtain ⟨rfl, a, b, c, rest, rfl, rfl⟩ := decodeThree_ok ((hdec ops).symm.trans h)
    exact ⟨(length_eq_of_encode (henc a b c)).symm, rest, by simp [henc]⟩

theorem decodeWindow_ok {ws : List Word} {i : Instr} {n : Nat} (h : decodeWindow ws = .ok (i, n)) :
    n = i.length ∧ ∃ rest, ws = encode i ++ rest := by
  cases ws with
  | nil => cases h
  | cons w ops => exact decodeOpcode_ok h

/-- Decoding reads back every well-formed instruction, whatever follows it. -/
theorem decodeWindow_encode {i : Instr} (h : i.wf = true) (rest : List Word) :
    decodeWindow (encode i ++ rest) = .ok (i, i.length) := by
  cases i with
  | unknown raw => exact decodeOpcode_of_unknown (of_decide_eq_true h) rest
  | _ => rfl

/-- Settles O1: an answer is the encoding it was read from, and every encoding is read back. -/
theorem decodeEncodeAgree : Obligations.DecodeEncodeAgree := by
  intro ws i n
  constructor
  · intro h
    exact ⟨decodeWindow_wf h, decodeWindow_ok h⟩
  · rintro ⟨hwf, rfl, rest, rfl⟩
    exact decodeWindow_encode hwf rest

/-- Settles O2: the decoder evaluated on the eight windows. -/
theorem specWordsDecode : Obligations.SpecWordsDecode :=
  ⟨rfl, rfl, rfl, rfl, rfl, rfl, rfl, rfl⟩

/-! ### Windows of the array -/

/-- Inside the array a window begins with the cell at its index. -/
theorem window_succ (m : Memory) {a : Nat} (h : a < 32776) (n : Nat) :
    m.window a (n + 1) = m.read a :: m.window (a + 1) n := if_pos h

theorem window_past (m : Memory) {a : Nat} (h : 32776 ≤ a) (n : Nat) : m.window a n = [] := by
  cases n with
  | zero => rfl
  | succ n => exact if_neg (Nat.not_lt.2 h)

/-- A window holds the cells from its index on, up to the end of the array (R85). -/
theorem window_eq_map (m : Memory) (a n : Nat) :
    m.window a n = (List.range (min n (32776 - a))).map fun k => m.read (a + k) := by
  induction n generalizing a with
  | zero => simp [Memory.window]
  | succ n ih =>
    rcases Nat.lt_or_ge a 32776 with ha | ha
    · have hlen : min (n + 1) (32776 - a) = min n (32776 - (a + 1)) + 1 := by omega
      rw [window_succ m ha, hlen, List.range_succ_eq_map, ih]
      simp [Function.comp_def, Nat.add_comm, Nat.add_left_comm]
    · have hlen : min (n + 1) (32776 - a) = 0 := by omega
      rw [window_past m ha, hlen]
      rfl

theorem window_length (m : Memory) (a n : Nat) : (m.window a n).length = min n (32776 - a) := by
  simp [window_eq_map]

theorem window_take (m : Memory) (a : Nat) {k n : Nat} (h : k ≤ n) :
    (m.window a n).take k = m.window a k := by
  rw [window_eq_map, window_eq_map, ← List.map_take, List.take_range]
  congr 2
  omega

theorem decodeAt_of_inArray (m : Memory) {p : Word} (h : InArray p) :
    decodeAt m p = decodeOpcode (m.read p.toNat) (m.window (p.toNat + 1) 3) :=
  congrArg decodeWindow (window_succ m h 3)

theorem instr_length_pos (i : Instr) : 0 < i.length := by
  rw [← encode_length]
  exact Nat.succ_pos _

/-- What is decoded at a cell is made of the cells from there on, all of them in the array. -/
theorem decodeAt_ok {m : Memory} {p : Word} {i : Instr} {n : Nat} (h : decodeAt m p = .ok (i, n)) :
    n = i.length ∧ p.toNat + n ≤ 32776 ∧ encode i = (List.range n).map fun k => m.read (p.toNat + k) := by
  obtain ⟨rfl, rest, hws⟩ := decodeWindow_ok h
  change m.window p.toNat 4 = encode i ++ rest at hws
  have hlen : (encode i).length ≤ min 4 (32776 - p.toNat) := by
    rw [← window_length m, hws]
    simp
  have hpos : 0 < i.length := instr_length_pos i
  rw [encode_length] at hlen
  refine ⟨rfl, by omega, ?_⟩
  calc encode i = (m.window p.toNat 4).take i.length := by
        rw [hws, ← encode_length, List.take_left]
    _ = (List.range i.length).map fun k => m.read (p.toNat + k) := by
        rw [window_take _ _ (by omega), window_eq_map]
        congr 2
        omega

/-- Three words after the opcode word decide (R60, MAX_ARITY). -/
theorem decodeOpcode_take (w : Word) (ops : List Word) :
    decodeOpcode w (ops.take 3) = decodeOpcode w ops := by
  cases opcodeShape w with
  | arity0 i _ _ hdec => rw [hdec, hdec]
  | arity1 f _ _ hdec => rw [hdec, hdec]; rcases ops with _ | ⟨a, ops⟩ <;> rfl
  | arity2 f _ _ hdec => rw [hdec, hdec]; rcases ops with _ | ⟨a, _ | ⟨b, ops⟩⟩ <;> rfl
  | arity3 f _ _ hdec => rw [hdec, hdec]; rcases ops with _ | ⟨a, _ | ⟨b, _ | ⟨c, ops⟩⟩⟩ <;> rfl

theorem decodeWindow_take (ws : List Word) : decodeWindow (ws.take 4) = decodeWindow ws := by
  cases ws with
  | nil => rfl
  | cons w ops => exact decodeOpcode_take w ops

theorem opcodeArity_le (w : Word) : opcodeArity w.toNat ≤ 3 := by
  cases opcodeShape w <;> omega

/-- A window shorter than its opcode's instruction is rejected, any other is read (R66, R85). -/
theorem decodeOpcode_of_short {w : Word} {ops : List Word} (h : ops.length < opcodeArity w.toNat) :
    decodeOpcode w ops = .error (.truncated w) := by
  cases opcodeShape w with
  | arity0 i harity _ _ => omega
  | arity1 f harity _ hdec =>
    rw [hdec]
    rcases ops with _ | ⟨a, ops⟩
    · rfl
    · simp at h; omega
  | arity2 f harity _ hdec =>
    rw [hdec]
    rcases ops with _ | ⟨a, _ | ⟨b, ops⟩⟩
    · rfl
    · rfl
    · simp at h; omega
  | arity3 f harity _ hdec =>
    rw [hdec]
    rcases ops with _ | ⟨a, _ | ⟨b, _ | ⟨c, ops⟩⟩⟩
    · rfl
    · rfl
    · rfl
    · simp at h; omega

theorem decodeOpcode_of_long {w : Word} {ops : List Word} (h : opcodeArity w.toNat ≤ ops.length) :
    ∃ i, decodeOpcode w ops = .ok (i, 1 + opcodeArity w.toNat) := by
  cases opcodeShape w with
  | arity0 i harity _ hdec => exact ⟨i, by rw [hdec, harity]⟩
  | arity1 f harity _ hdec =>
    rcases ops with _ | ⟨a, ops⟩
    · simp [harity] at h
    · exact ⟨f a, by rw [hdec, harity]; rfl⟩
  | arity2 f harity _ hdec =>
    rcases ops with _ | ⟨a, _ | ⟨b, ops⟩⟩
    · simp [harity] at h
    · simp [harity] at h
    · exact ⟨f a b, by rw [hdec, harity]; rfl⟩
  | arity3 f harity _ hdec =>
    rcases ops with _ | ⟨a, _ | ⟨b, _ | ⟨c, ops⟩⟩⟩
    · simp [harity] at h
    · simp [harity] at h
    · simp [harity] at h
    · exact ⟨f a b c, by rw [hdec, harity]; rfl⟩

/-- Settles O3: the window at `p` ends where the array does, and the opcode word says how many words it
must hold. -/
theorem decodeAtReadsTheArray : Obligations.DecodeAtReadsTheArray := by
  intro m p
  have hmax := opcodeArity_le (m.read p.toNat)
  refine ⟨fun hp => decodeAt_of_not_inArray m (Nat.not_lt.2 hp), fun hp hw => ?_, fun hp _ htop => ?_,
    fun hp _ htop => ?_⟩
  · rw [decodeAt_of_inArray m hp, decodeOpcode_of_unknown hw]
  · rw [decodeAt_of_inArray m hp]
    exact decodeOpcode_of_short (by rw [window_length]; omega)
  · obtain ⟨i, hi⟩ := decodeOpcode_of_long (w := m.read p.toNat) (ops := m.window (p.toNat + 1) 3)
      (by rw [window_length]; omega)
    rw [← decodeAt_of_inArray m hp] at hi
    obtain ⟨-, -, henc⟩ := decodeAt_ok hi
    exact ⟨i, hi, henc⟩

/-- Settles O4: the four cells are the front of the longer window, and four words decide. -/
theorem fourCellsDecideTheWindow : Obligations.FourCellsDecideTheWindow := by
  intro m p k
  rw [← window_take m p (Nat.le_add_right 4 k), decodeWindow_take]

/-- Settles O40: a decoded instruction lies in the array, so the address after it is at most 32776. -/
theorem nextPcDoesNotWrap : Obligations.NextPcDoesNotWrap := by
  intro s i n h
  obtain ⟨rfl, htop, -⟩ := decodeAt_ok h
  have hnext : (s.nextPc i).toNat = s.pc.toNat + i.length := by
    rw [State.nextPc, BitVec.toNat_add, BitVec.toNat_ofNat]
    omega
  exact ⟨hnext, by omega⟩

end Sys2Proof.Machine
end

section
/-! SUPPORT. The machine-readable opcode table (30_encoding.md R71): its rows, read as intervals of opcode
words, stand one after another from 0 to 65535. -/

namespace Sys2Proof.Machine

/-- The number of low bits a row's mask leaves free. -/
def freeBits (r : TableRow) : Nat := Nat.log2 (65536 - r.mask.toNat)

/-- A row whose mask keeps exactly the bits from `freeBits` up, and whose pattern has no other bit. -/
def isBlock (r : TableRow) : Bool :=
  r.mask == BitVec.allOnes 16 <<< freeBits r && r.pattern.toNat % 2 ^ freeBits r == 0

/-- The rows are blocks of opcode words that follow one another from `lo` up to `hi`. -/
def rowsTile : Nat → List TableRow → Nat → Bool
  | lo, [], hi => lo == hi
  | lo, r :: rows, hi =>
    isBlock r && r.pattern.toNat == lo && rowsTile (lo + 2 ^ freeBits r) rows hi

theorem rowsTile_opcodeTable : rowsTile 0 opcodeTable 65536 = true := by decide

theorem rowsTile_unknownRows : rowsTile 22 unknownRows 65536 = true := by decide

theorem unknownRows_named : ∀ r ∈ unknownRows, r.mnemonic = "Unknown" ∧ r.length = 1 := by decide

/-- Masking the low bits away rounds down to a multiple of their power. -/
theorem toNat_and_highMask {n : Nat} (w : BitVec n) (k : Nat) :
    (w &&& BitVec.allOnes n <<< k).toNat = w.toNat / 2 ^ k * 2 ^ k := by
  have hshift : w &&& BitVec.allOnes n <<< k = (w >>> k) <<< k := by
    ext i hi
    by_cases hik : i < k
    · simp [hik]
    · have hadd : k + (i - k) = i := by omega
      simp [hik, hadd, BitVec.getLsbD_eq_getElem hi]
  have hle : w.toNat / 2 ^ k * 2 ^ k < 2 ^ n := (Nat.div_mul_le_self _ _).trans_lt w.isLt
  rw [hshift, BitVec.toNat_shiftLeft, BitVec.toNat_ushiftRight, Nat.shiftRight_eq_div_pow,
    Nat.shiftLeft_eq, Nat.mod_eq_of_lt hle]

/-- A block row accepts the interval of opcode words that begins at its pattern. -/
theorem accepts_iff {r : TableRow} (h : isBlock r = true) (w : Word) :
    r.accepts w = true ↔
      r.pattern.toNat ≤ w.toNat ∧ w.toNat < r.pattern.toNat + 2 ^ freeBits r := by
  simp only [isBlock, Bool.and_eq_true, beq_iff_eq] at h
  obtain ⟨hmask, hpat⟩ := h
  obtain ⟨q, hq⟩ := Nat.dvd_of_mod_eq_zero hpat
  rw [TableRow.accepts, beq_iff_eq, ← BitVec.toNat_inj, hmask, toNat_and_highMask, hq, Nat.mul_comm,
    Nat.mul_right_inj (Nat.two_pow_pos _).ne', Nat.div_eq_iff (Nat.two_pow_pos _)]
  have hpos : 0 < 2 ^ freeBits r := Nat.two_pow_pos _
  rw [Nat.mul_comm q]
  omega

/-- Below their first word, rows that tile an interval accept nothing. -/
theorem filter_accepts_of_lt {lo hi : Nat} {rows : List TableRow} (h : rowsTile lo rows hi = true)
    {w : Word} (hw : w.toNat < lo) : rows.filter (fun row => row.accepts w) = [] := by
  induction rows generalizing lo with
  | nil => rfl
  | cons r rows ih =>
    simp only [rowsTile, Bool.and_eq_true, beq_iff_eq] at h
    obtain ⟨⟨hblock, rfl⟩, htail⟩ := h
    have hr : ¬ r.accepts w = true := by rw [accepts_iff hblock]; omega
    rw [List.filter_cons, if_neg hr]
    exact ih htail (Nat.lt_add_right _ hw)

/-- In the interval they tile, exactly one of the rows accepts a word. -/
theorem filter_accepts_of_tiled {lo hi : Nat} {rows : List TableRow} (h : rowsTile lo rows hi = true)
    {w : Word} (hlo : lo ≤ w.toNat) (hhi : w.toNat < hi) :
    ∃ r, rows.filter (fun row => row.accepts w) = [r] := by
  induction rows generalizing lo with
  | nil =>
    have hend : lo = hi := by simpa [rowsTile] using h
    omega
  | cons r rows ih =>
    simp only [rowsTile, Bool.and_eq_true, beq_iff_eq] at h
    obtain ⟨⟨hblock, rfl⟩, htail⟩ := h
    rcases Nat.lt_or_ge w.toNat (r.pattern.toNat + 2 ^ freeBits r) with hlt | hge
    · exact ⟨r, by rw [List.filter_cons, if_pos ((accepts_iff hblock w).2 ⟨hlo, hlt⟩),
        filter_accepts_of_lt htail hlt]⟩
    · have hr : ¬ r.accepts w = true := by rw [accepts_iff hblock]; omega
      rw [List.filter_cons, if_neg hr]
      exact ih htail hge

/-- The row of the table that is a defined instruction's own. -/
def ownRow (i : Instr) : TableRow := ⟨i.mnemonic, 0xFFFF, i.opcodeWord, i.length⟩

theorem ownRow_mem_definedRows {i : Instr} (h : ∀ raw, i ≠ .unknown raw) : ownRow i ∈ definedRows := by
  cases i with
  | unknown raw => exact absurd rfl (h raw)
  | _ =>
    simp [ownRow, definedRows, Instr.mnemonic, Instr.opcodeWord, Instr.length, Instr.format, Format.length]

theorem ownRow_accepts (i : Instr) : (ownRow i).accepts i.opcodeWord = true := by
  have hmask : (0xFFFF : Word) = BitVec.allOnes 16 := rfl
  rw [TableRow.accepts, ownRow, hmask, BitVec.and_allOnes, beq_self_eq_true]

/-- The table has a row for every instruction: its own, or one of those that tile the words of `Unknown`. -/
theorem exists_row_of_wf {i : Instr} (h : i.wf = true) :
    ∃ r ∈ opcodeTable, r.accepts i.opcodeWord = true ∧ i.mnemonic = r.mnemonic ∧ i.length = r.length := by
  by_cases hi : ∃ raw, i = .unknown raw
  · obtain ⟨raw, rfl⟩ := hi
    have hraw : 22 ≤ raw.toNat := of_decide_eq_true h
    obtain ⟨r, hr⟩ := filter_accepts_of_tiled rowsTile_unknownRows hraw raw.isLt
    have hmem : r ∈ unknownRows.filter fun row => row.accepts raw := by simp [hr]
    obtain ⟨hrow, haccepts⟩ := List.mem_filter.1 hmem
    obtain ⟨hname, hlen⟩ := unknownRows_named r hrow
    exact ⟨r, List.mem_append_right _ hrow, haccepts, hname.symm, hlen.symm⟩
  · exact ⟨ownRow i, List.mem_append_left _ (ownRow_mem_definedRows (not_exists.1 hi)), ownRow_accepts i,
      rfl, rfl⟩

/-- Settles O5: the rows tile the opcode words, so the row of an instruction is the only one that accepts
its word. -/
theorem tableRowsTileTheOpcodeWords : Obligations.TableRowsTileTheOpcodeWords := by
  intro w
  obtain ⟨r, hr⟩ := filter_accepts_of_tiled rowsTile_opcodeTable (Nat.zero_le _) w.isLt
  refine ⟨r, hr, fun ops i n h => ?_⟩
  obtain ⟨rfl, rest, hws⟩ := decodeWindow_ok h
  obtain rfl : w = i.opcodeWord := (List.cons.inj hws).1
  obtain ⟨r', hmem, haccepts, hname, hlen⟩ := exists_row_of_wf (decodeWindow_wf h)
  have hr' : r' ∈ opcodeTable.filter fun row => row.accepts i.opcodeWord :=
    List.mem_filter.2 ⟨hmem, haccepts⟩
  obtain rfl : r' = r := by simpa [hr] using hr'
  exact ⟨hname, hlen⟩

end Sys2Proof.Machine
end

section
/-! SUPPORT. The placing of an instruction where the next step fetches (log 9): what a written word
sequence leaves in the cells, and the step that follows. -/

namespace Sys2Proof.Machine

/-- A word sequence changes the cells it is written to only (R43). -/
theorem read_writeList_other {ws : List Word} (m : Memory) {a b : Nat} (h : b < a ∨ a + ws.length ≤ b) :
    Memory.read (m.writeList a ws) b = Memory.read m b := by
  induction ws generalizing m a with
  | nil => rfl
  | cons w ws ih =>
    rw [List.length_cons] at h
    rw [Memory.writeList, ih _ (by omega), read_write_other _ _ (by omega)]

/-- The window at a written word sequence is the sequence. -/
theorem window_writeList {ws : List Word} (m : Memory) {a : Nat} (h : a + ws.length ≤ 32776) :
    (m.writeList a ws).window a ws.length = ws := by
  induction ws generalizing m a with
  | nil => rfl
  | cons w ws ih =>
    rw [List.length_cons] at h ⊢
    rw [window_succ _ (by omega), Memory.writeList, ih _ (by omega),
      read_writeList_other _ (.inl (Nat.lt_succ_self a)), read_write_same]

theorem placePc_fits (s : State) : (placePc s).toNat + 4 ≤ 32776 := by
  unfold placePc
  split
  · assumption
  · decide

/-- Four words always hold an instruction. -/
theorem decodeWindow_tableWords (nbits w : Nat) : ∃ i n, decodeWindow (tableWords nbits w) = .ok (i, n) := by
  obtain ⟨i, hi⟩ := decodeOpcode_of_long (ops := (tableWords nbits w).tail) (opcodeArity_le _)
  exact ⟨i, _, hi⟩

/-- Settles O6: the window at the placed words is the placed words, and a pending output is kept only
before an `Out`, which stage 5 lets pass. -/
theorem placedTableWordRuns : Obligations.PlacedTableWordRuns := by
  intro s nbits w
  obtain ⟨i, n, hi⟩ := decodeWindow_tableWords nbits w
  obtain ⟨-, rest, hws⟩ := decodeWindow_ok hi
  have hdec : decodeAt (s.withFetchWord nbits w).mem (s.withFetchWord nbits w).pc = .ok (i, n) := by
    have hwin := window_writeList (ws := tableWords nbits w) s.mem (placePc_fits s)
    rw [← hi]
    exact congrArg decodeWindow hwin
  have hout : i.isOut = true ∨ (s.withFetchWord nbits w).outbuf = [] := by
    by_cases hop : i.opcodeWord = 19
    · exact .inl ((isOut_iff_opcodeWord (decodeWindow_wf hi)).2 hop)
    · refine .inr (if_neg ?_)
      rw [hws]
      simpa [encode] using hop
  refine ⟨i, by rw [decodeTableWord, hi], ⟨rest, hws⟩, ?_, rfl, rfl, fun a ha => ?_⟩
  · rw [step_of_beginStep_some (beginStep_of_cont rfl), fetchAndRun_of_decoded hdec,
      drainOrExec_of_isOut_or_empty hout]
  · exact read_writeList_other (ws := tableWords nbits w) s.mem ha

end Sys2Proof.Machine
end

section
/-! SUPPORT. What each instruction answers when its operand words name something: one equation for each
way it can go on (41_data_movement.md to 47_system.md). -/

namespace Sys2Proof.Machine

/-! ### Destination checks and stores -/

theorem checkDst_of_inArray {d : Word} (h : InArray d) : checkDst d = .ok () := if_pos h

theorem checkDst_of_not_inArray {d : Word} (h : ¬ InArray d) : checkDst d = .error (.addressOutOfRange d) :=
  if_neg h

theorem memRead_of_inArray (s : State) {a : Word} (h : InArray a) : memRead s a = .ok (s.cell a.toNat) :=
  if_pos h

theorem memRead_of_not_inArray (s : State) {a : Word} (h : ¬ InArray a) :
    memRead s a = .error (.addressOutOfRange a) := if_neg h

theorem memWrite_of_inArray (s : State) {a : Word} (v : Word) (h : InArray a) :
    memWrite s a v = .ok (s.setCell a.toNat v) := if_pos h

theorem memWrite_of_not_inArray (s : State) {a : Word} (v : Word) (h : ¬ InArray a) :
    memWrite s a v = .error (.addressOutOfRange a) := if_neg h

theorem storesOnly_setCell (s : State) (d : Nat) (v : Word) : StoresOnly s (s.setCell d v) d v :=
  ⟨cell_setCell_same s d v, fun _ ha => cell_setCell_other s v ha⟩

/-- A store followed by the advance is the whole change of an instruction of format D, DS or DSS. -/
theorem writesCell_setCell_advance (s : State) (d : Nat) (v : Word) (i : Instr) :
    WritesCell s ((s.setCell d v).advance i) d v i.length :=
  ⟨storesOnly_setCell s d v, rfl, rfl, rfl, rfl, rfl⟩

theorem movesPc_setPc (s : State) (p : Word) : MovesPc s (s.setPc p) p :=
  ⟨fun _ => rfl, rfl, rfl, rfl, rfl, rfl⟩

/-! ### Format DSS -/

section
variable {dst a b : Word} (hd : InArray dst) (ha : InArray a) (hb : InArray b)
include hd ha hb

theorem binary_of_inArray (i : Instr) (f : Word → Word → Except Cause Word) (s : State) :
    binary i f dst a b s =
      finish s (f (s.valueOf a) (s.valueOf b) >>= fun v => pure ((s.setCell dst.toNat v).advance i)) := by
  simp [binary, checkDst_of_inArray hd, resolve_of_inArray s ha, resolve_of_inArray s hb]

/-- A unit that answers a value makes an instruction that completes by writing it. -/
theorem binary_writesCell (i : Instr) {f : Word → Word → Except Cause Word} {s : State} {v : Word}
    (hf : f (s.valueOf a) (s.valueOf b) = .ok v) :
    ∃ t, binary i f dst a b s = .next t ∧ WritesCell s t dst.toNat v i.length := by
  refine ⟨_, ?_, writesCell_setCell_advance s dst.toNat v i⟩
  rw [binary_of_inArray hd ha hb, hf]
  rfl

end

/-! ### The other formats -/

theorem exec_set_of_inArray (s : State) {dst val : Word} (hd : 32768 ≤ dst.toNat ∧ dst.toNat < 32776)
    (hv : InArray val) :
    exec (.set dst val) s = .next ((s.setCell dst.toNat (s.valueOf val)).advance (.set dst val)) := by
  rw [exec_set_of_legal s val hd, resolve_of_inArray s hv]
  rfl

theorem exec_not_of_inArray (s : State) {dst val : Word} (hd : InArray dst) (hv : InArray val) :
    exec (.not dst val) s =
      .next ((s.setCell dst.toNat (aluNot (s.valueOf val))).advance (.not dst val)) := by
  simp [exec, execNot, checkDst_of_inArray hd, resolve_of_inArray s hv]

theorem pushValue_of_inArray (depth : Option Nat) (s : State) {val : Word} (hv : InArray val) :
    pushValue depth val s =
      finish s (pushStack depth s (s.valueOf val) >>= fun t => pure (t.advance (.push val))) := by
  simp [pushValue, resolve_of_inArray s hv]

theorem callTarget_of_inArray (depth : Option Nat) (s : State) {addr : Word} (h : InArray addr) :
    callTarget depth addr s =
      finish s (pushStack depth s (s.pc + 2) >>= fun t => pure (t.setPc (s.valueOf addr))) := by
  have hnext : s.nextPc (.call addr) = s.pc + 2 := rfl
  simp [callTarget, resolve_of_inArray s h, hnext]

theorem exec_call_of_inArray (s : State) {addr : Word} (h : InArray addr) :
    exec (.call addr) s = .next { s with stack := s.stack ++ [s.pc + 2], pc := s.valueOf addr } :=
  callTarget_of_inArray Config.stackDepth s h

theorem exec_call_of_not_inArray (s : State) {addr : Word} (h : ¬ InArray addr) :
    exec (.call addr) s = raise (.invalidOperand addr) s := by
  simp [exec, execCall, callTarget, resolve_of_not_inArray s h]

theorem popStack_of_empty {s : State} (h : s.stack = []) : popStack s = none := by
  simp [popStack, h]

theorem popStack_of_append {s : State} {rest : List Word} {v : Word} (h : s.stack = rest ++ [v]) :
    popStack s = some (v, { s with stack := rest }) := by
  simp [popStack, h]

theorem exec_pop_of_empty {s : State} {dst : Word} (hd : InArray dst) (h : s.stack = []) :
    exec (.pop dst) s = raise .stackUnderflow s := by
  simp [exec, execPop, checkDst_of_inArray hd, popStack_of_empty h]

theorem exec_pop_of_append {s : State} {dst : Word} {rest : List Word} {v : Word} (hd : InArray dst)
    (h : s.stack = rest ++ [v]) :
    exec (.pop dst) s = .next (({ s with stack := rest }.setCell dst.toNat v).advance (.pop dst)) := by
  simp [exec, execPop, checkDst_of_inArray hd, popStack_of_append h]

theorem exec_ret_of_empty {s : State} (h : s.stack = []) : exec .ret s = .next (s.setRunState .halt) := by
  simp [exec, execRet, popStack_of_empty h]

theorem exec_ret_of_append {s : State} {rest : List Word} {v : Word} (h : s.stack = rest ++ [v]) :
    exec .ret s = .next { s with stack := rest, pc := v } := by
  simp [exec, execRet, popStack_of_append h, State.setPc]

theorem exec_jmp_of_inArray (s : State) {addr : Word} (h : InArray addr) :
    exec (.jmp addr) s = .next (s.setPc (s.valueOf addr)) := by
  simp [exec, execJmp, resolve_of_inArray s h]

/-- The conditional jumps, once the test is resolved; the target is resolved on the taken path only
(decision D12). -/
theorem exec_jt_of_inArray (s : State) {test : Word} (h : InArray test) (addr : Word) :
    exec (.jt test addr) s =
      if s.valueOf test = 0 then .next (s.advance (.jt test addr))
      else finish s (resolve s addr >>= fun t => pure (s.setPc t)) := by
  simp only [exec, execJt, resolve_of_inArray s h, ok_bind, isZero, decide_eq_true_eq]
  split <;> rfl

theorem exec_jf_of_inArray (s : State) {test : Word} (h : InArray test) (addr : Word) :
    exec (.jf test addr) s =
      if s.valueOf test = 0 then finish s (resolve s addr >>= fun t => pure (s.setPc t))
      else .next (s.advance (.jf test addr)) := by
  simp only [exec, execJf, resolve_of_inArray s h, ok_bind, isZero, decide_eq_true_eq]
  split <;> rfl

theorem exec_rmem_of_inArray (s : State) {dst src : Word} (hd : InArray dst) (h : InArray src) :
    exec (.rmem dst src) s =
      finish s (memRead s (s.valueOf src) >>= fun v =>
        pure ((s.setCell dst.toNat v).advance (.rmem dst src))) := by
  simp [exec, execRmem, checkDst_of_inArray hd, resolve_of_inArray s h]

theorem exec_wmem_of_inArray (s : State) {dst val : Word} (hd : InArray dst) (h : InArray val) :
    exec (.wmem dst val) s =
      finish s (memWrite s (s.valueOf dst) (s.valueOf val) >>= fun t => pure (t.advance (.wmem dst val))) := by
  simp [exec, execWmem, resolve_of_inArray s hd, resolve_of_inArray s h]

theorem exec_out_of_inArray (s : State) {val : Word} (h : InArray val) :
    exec (.out val) s =
      if charConvertible (s.valueOf val) = true then
        .next ((s.appendOutput (s.valueOf val)).advance (.out val))
      else raise (.unconvertibleOutput (s.valueOf val)) s := by
  simp only [exec, execOut, resolve_of_inArray s h, ok_bind]
  split <;> rfl

theorem exec_out_of_not_inArray (s : State) {val : Word} (h : ¬ InArray val) :
    exec (.out val) s = raise (.invalidOperand val) s := by
  simp [exec, execOut, resolve_of_not_inArray s h]

theorem exec_inp_of_empty {s : State} {dst : Word} (hd : InArray dst) (hq : s.inq = []) :
    exec (.inp dst) s = .next (s.setRunState .inputNeeded) := by
  have hpop : popInput s = none := by simp [popInput, hq]
  simp [exec, execInp, checkDst_of_inArray hd, hpop]

/-! ### The arithmetic laws -/

theorem reduce_toNat (n : Nat) : (reduce n).toNat = n % 32768 := by
  have hlt : n % 32768 < 32768 := Nat.mod_lt _ (by decide)
  exact Nat.mod_eq_of_lt (hlt.trans (by decide))

theorem reduce_lt (n : Nat) : (reduce n).toNat < 32768 := by
  rw [reduce_toNat]
  exact Nat.mod_lt _ (by decide)

/-- Reduction modulo 32768 clears bit 15 and keeps the bits below it (R130). -/
theorem reduce_getLsbD (n : Nat) {k : Nat} (hk : k < 16) :
    (reduce n).getLsbD k = (decide (k < 15) && n.testBit k) := by
  have hpow : Config.modulus = 2 ^ 15 := rfl
  rw [reduce, BitVec.getLsbD_ofNat, hpow, Nat.testBit_mod_two_pow, decide_eq_true hk, Bool.true_and]

theorem aluMod_of_ne_zero (va : Word) {vb : Word} (h : vb ≠ 0) : aluMod va vb = .ok (va % vb) := by
  rw [aluMod, if_neg h, ← BitVec.toNat_umod, BitVec.ofNat_toNat, BitVec.setWidth_eq]

theorem aluMod_of_zero (va : Word) : aluMod va 0 = .error .divideByZero := if_pos rfl

theorem boolWord_lt (c : Bool) : (boolWord c).toNat < 32768 := by
  cases c <;> decide

end Sys2Proof.Machine
end

section
/-! SUPPORT. The proofs of the statements about single instructions: each is the equation of the
instruction, read off for the case of the statement. -/

namespace Sys2Proof.Machine

/-- Settles O15: a register destination and a value that resolves leave only the store and the
advance. -/
theorem setCopiesItsValueToTheRegister : Obligations.SetCopiesItsValueToTheRegister :=
  fun s _ _ hlo hhi hv =>
    ⟨_, exec_set_of_inArray s ⟨hlo, hhi⟩ hv, writesCell_setCell_advance s _ _ _⟩

/-- Settles O16: with no depth to reach, a value that resolves is pushed. -/
theorem pushAddsItsValueOnTop : Obligations.PushAddsItsValueOnTop :=
  fun s _ hv => ⟨_, pushValue_of_inArray Config.stackDepth s hv, fun _ => rfl, rfl, rfl, rfl, rfl, rfl⟩

/-- Settles O17: the two answers of the stack primitive. -/
theorem popTakesTheTopOrUnderflows : Obligations.PopTakesTheTopOrUnderflows := by
  intro s dst hd
  exact ⟨fun rest v h => ⟨_, exec_pop_of_append hd h, storesOnly_setCell _ _ _, rfl, rfl, rfl, rfl, rfl⟩,
    fun h => ⟨_, exec_pop_of_empty hd h, rfl⟩⟩

/-- Settles O18: each primitive and each caller on the stack it is given. -/
theorem stackPrimitivesWorkAtTheEnd : Obligations.StackPrimitivesWorkAtTheEnd := by
  intro s depth v
  refine ⟨fun h => if_pos h, fun val hv h => ?_, fun h => if_neg h, popStack_of_append rfl, rfl,
    fun dst hd => exec_pop_of_empty hd rfl, exec_ret_of_empty rfl⟩
  have hfull : pushStack depth s (s.valueOf val) = .error .stackOverflow := if_pos h
  rw [pushValue_of_inArray depth s hv, hfull]
  rfl

/-- Settles O19: the operands resolve, so the depth test of the push decides. -/
theorem finiteStackOverflowsWhenFull : Obligations.FiniteStackOverflowsWhenFull := by
  intro s n w hw
  rw [pushValue_of_inArray (some n) s hw, callTarget_of_inArray (some n) s hw]
  constructor
  · intro hfull
    have hpush : ∀ v, pushStack (some n) s v = .error .stackOverflow := fun v => if_pos (by rw [hfull])
    rw [hpush, hpush]
    exact ⟨⟨_, rfl, rfl⟩, ⟨_, rfl, rfl⟩⟩
  · intro hroom
    have hne : some n ≠ some s.stack.length := fun h => hroom.ne' (Option.some.inj h)
    have hpush : ∀ v, pushStack (some n) s v = .ok { s with stack := s.stack ++ [v] } := fun v => if_neg hne
    have hlen : ∀ v, (s.stack ++ [v]).length ≤ n := fun v => by simpa using hroom
    rw [hpush, hpush]
    exact ⟨⟨_, rfl, rfl, hlen _⟩, ⟨_, rfl, rfl, hlen _⟩⟩

/-- Settles O20: the comparator always answers a value, 1 or 0. -/
theorem comparisonsWriteOneOrZero : Obligations.ComparisonsWriteOneOrZero := by
  intro s dst a b hd ha hb
  constructor
  · exact binary_writesCell hd ha hb (.eq dst a b) (by simp [compareEq, boolWord])
  · exact binary_writesCell hd ha hb (.gt dst a b) (by simp [compareGt, boolWord])

/-- Settles O21: the test value decides whether the target word is looked at. -/
theorem jumpsMoveOnlyThePc : Obligations.JumpsMoveOnlyThePc := by
  intro s test addr ht
  have htaken : InArray addr →
      finish s (resolve s addr >>= fun t => pure (s.setPc t)) = .next (s.setPc (s.valueOf addr)) := by
    intro h
    rw [resolve_of_inArray s h]
    rfl
  rw [exec_jt_of_inArray s ht, exec_jf_of_inArray s ht]
  refine ⟨fun h => ⟨_, exec_jmp_of_inArray s h, movesPc_setPc _ _⟩, fun hz => ?_, fun hz => ?_⟩
  · rw [if_neg hz, if_neg hz]
    exact ⟨fun h => ⟨_, htaken h, movesPc_setPc _ _⟩, ⟨_, rfl, movesPc_setPc _ _⟩⟩
  · rw [if_pos hz, if_pos hz]
    exact ⟨fun h => ⟨_, htaken h, movesPc_setPc _ _⟩, ⟨_, rfl, movesPc_setPc _ _⟩⟩

/-- Settles O22: the target resolves before the push, which has no depth to reach. -/
theorem callPushesTheReturnAddress : Obligations.CallPushesTheReturnAddress :=
  fun s _ h => ⟨_, exec_call_of_inArray s h, fun _ => rfl, rfl, rfl, rfl, rfl, rfl⟩

/-- Settles O23: the two answers of the stack primitive. -/
theorem retPopsThePcOrHalts : Obligations.RetPopsThePcOrHalts :=
  fun _ => ⟨fun _ _ h => ⟨_, exec_ret_of_append h, fun _ => rfl, rfl, rfl, rfl, rfl, rfl⟩,
    exec_ret_of_empty⟩

/-- Settles O24: a completed `Call` had a valid target, and left the return address on top. -/
theorem retUndoesCall : Obligations.RetUndoesCall := by
  intro s t addr hs hcall ht
  by_cases h : InArray addr
  · cases (exec_call_of_inArray s h).symm.trans hcall
    exact exec_ret_of_append rfl
  · cases (exec_call_of_not_inArray s h).symm.trans hcall
    cases ht

/-- Settles O25: both units always answer a value. -/
theorem addAndMultReduceTheExactResult : Obligations.AddAndMultReduceTheExactResult :=
  fun _ dst a b hd ha hb =>
    ⟨binary_writesCell hd ha hb (.add dst a b) rfl, binary_writesCell hd ha hb (.mult dst a b) rfl⟩

/-- Settles O26: the unit answers the unsigned remainder, or the fault of its zero test. -/
theorem modWritesTheRemainderOrFaults : Obligations.ModWritesTheRemainderOrFaults := by
  intro s dst a b hd ha hb
  constructor
  · intro hz
    have hpos : 0 < (s.valueOf b).toNat := Nat.pos_of_ne_zero fun h => hz (BitVec.eq_of_toNat_eq h)
    obtain ⟨t, ht, hw⟩ := binary_writesCell hd ha hb (.mod dst a b) (aluMod_of_ne_zero (s.valueOf a) hz)
    refine ⟨t, (s.valueOf a).toNat / (s.valueOf b).toNat, _, ht, hw, ?_, ?_⟩
    · rw [BitVec.toNat_umod, Nat.mul_comm, Nat.div_add_mod]
    · rw [BitVec.toNat_umod]
      exact Nat.mod_lt _ hpos
  · intro hz
    refine ⟨_, ?_, rfl⟩
    rw [exec, execMod, binary_of_inArray hd ha hb, hz, aluMod_of_zero]
    rfl

/-- Settles O27: the reduction keeps bits 0 to 14 of the 16-bit result. -/
theorem bitwiseResultsAreFifteenBits : Obligations.BitwiseResultsAreFifteenBits := by
  intro s dst a b hd ha hb
  refine ⟨?_, ?_, ?_⟩
  · obtain ⟨t, ht, hw⟩ := binary_writesCell hd ha hb (.and dst a b)
      (f := fun va vb => .ok (aluAnd va vb)) (s := s) rfl
    refine ⟨t, _, ht, hw, fun k hk => ?_⟩
    rw [aluAnd, reduce_getLsbD _ hk, BitVec.testBit_toNat, BitVec.getLsbD_and]
  · obtain ⟨t, ht, hw⟩ := binary_writesCell hd ha hb (.or dst a b)
      (f := fun va vb => .ok (aluOr va vb)) (s := s) rfl
    refine ⟨t, _, ht, hw, fun k hk => ?_⟩
    rw [aluOr, reduce_getLsbD _ hk, BitVec.testBit_toNat, BitVec.getLsbD_or]
  · refine ⟨_, _, exec_not_of_inArray s hd ha, writesCell_setCell_advance s _ _ _, fun k hk => ?_⟩
    have hcompl : 65535 - (s.valueOf a).toNat = (~~~ s.valueOf a).toNat := by simp
    rw [aluNot, hcompl, reduce_getLsbD _ hk, BitVec.testBit_toNat, BitVec.getLsbD_not, decide_eq_true hk,
      Bool.true_and]

/-- Settles O28: the resolved address decides. -/
theorem rmemLoadsTheAddressedCell : Obligations.RmemLoadsTheAddressedCell := by
  intro s dst src hd hsrc
  rw [exec_rmem_of_inArray s hd hsrc]
  constructor
  · intro he
    rw [memRead_of_inArray s he]
    exact ⟨_, rfl, writesCell_setCell_advance s _ _ _⟩
  · intro he
    rw [memRead_of_not_inArray s he]
    exact ⟨_, rfl, rfl⟩

/-- Settles O29: the resolved address decides. -/
theorem wmemStoresToTheAddressedCell : Obligations.WmemStoresToTheAddressedCell := by
  intro s dst val hd hval
  rw [exec_wmem_of_inArray s hd hval]
  constructor
  · intro he
    rw [memWrite_of_inArray s _ he]
    exact ⟨_, rfl, writesCell_setCell_advance s _ _ _⟩
  · intro he
    rw [memWrite_of_not_inArray s _ he]
    exact ⟨_, rfl, rfl⟩

/-- Settles O30: the character predicate decides, and it holds below 128. -/
theorem outAppendsConvertibleCharacters : Obligations.OutAppendsConvertibleCharacters := by
  intro s val hval
  rw [exec_out_of_inArray s hval]
  refine ⟨fun h => ?_, fun h => ?_, fun h => ?_⟩
  · rw [if_pos h]
    exact ⟨_, rfl, fun _ => rfl, rfl, rfl, rfl, rfl, rfl⟩
  · rw [if_neg (Bool.eq_false_iff.1 h)]
    exact ⟨_, rfl, rfl⟩
  · rw [charConvertible, decide_eq_true h, Bool.true_or]

/-- Settles O31: the two answers of the queue. -/
theorem inTakesTheFrontOrSuspends : Obligations.InTakesTheFrontOrSuspends :=
  fun _ _ hd =>
    ⟨fun _ _ hq => ⟨_, exec_inp_of_nonempty hd hq, storesOnly_setCell _ _ _, rfl, rfl, rfl, rfl, rfl⟩,
      exec_inp_of_empty hd⟩

/-- Settles O33: both instructions have one outcome, with no test before it. -/
theorem haltStopsAndUnknownFaults : Obligations.HaltStopsAndUnknownFaults :=
  fun _ _ => ⟨rfl, _, rfl, rfl⟩

/-- Settles O42: a register is read, resolved and written through its cell. -/
theorem registersAreTheTopCells : Obligations.RegistersAreTheTopCells := by
  intro s i j v
  refine ⟨rfl, ?_, ?_, fun a ha => cell_setCell_other s v (ha.trans_le (Nat.le_add_right _ _)).ne⟩
  · have hw : (BitVec.ofNat 16 (32768 + i.val)).toNat = 32768 + i.val := by
      rw [BitVec.toNat_ofNat]; omega
    rw [resolve_eq, hw, if_neg (by omega), if_pos (by omega)]
    rfl
  · simp only [State.reg, State.setReg, State.cell, setCell_mem, read_write]
    simp [Fin.ext_iff]

end Sys2Proof.Machine
end

section
/-! SUPPORT. The order of the tests of an instruction (40_step_protocol.md section 2): the destination
check, then the source words from left to right, then the rest. -/

namespace Sys2Proof.Machine

/-- The check an instruction makes on its destination word (R89, R90). -/
def checkDestination : Instr → Except Cause Unit
  | .set d _ => checkReg d
  | i => match checkedDst i with
    | some d => checkDst d
    | none => .ok ()

theorem checkDestination_of_checkedDst {i : Instr} {d : Word} (h : checkedDst i = some d) :
    checkDestination i = checkDst d := by
  cases i <;> cases h <;> rfl

theorem checkDestination_of_ok {i : Instr} (h : DestinationOk i) : checkDestination i = .ok () := by
  obtain ⟨hchecked, hset⟩ := h
  cases i with
  | set d v => exact if_pos (hset d v rfl)
  | pop | eq | gt | add | mult | mod | and | or | not | rmem | inp =>
    exact checkDst_of_inArray (hchecked _ rfl)
  | halt | push | jmp | jt | jf | wmem | call | ret | out | noop | unknown => rfl

/-- A meaning that resolves the words of a list one after another before it does anything else. -/
inductive ResolvesFirst (s : State) : List Word → Except Cause State → Prop
  | rest (r : Except Cause State) : ResolvesFirst s [] r
  | source {w : Word} {ws : List Word} {k : Word → Except Cause State} (h : ∀ v, ResolvesFirst s ws (k v)) :
    ResolvesFirst s (w :: ws) (resolve s w >>= k)

/-- The first word that names nothing is the fault. -/
theorem ResolvesFirst.error_of_first_invalid {s : State} {before after : List Word} {w : Word}
    {r : Except Cause State} (h : ResolvesFirst s (before ++ w :: after) r)
    (hbefore : ∀ x ∈ before, InArray x) (hw : ¬ InArray w) : r = .error (.invalidOperand w) := by
  induction before generalizing r with
  | nil =>
    cases h with
    | source hk => rw [resolve_of_not_inArray s hw, error_bind]
  | cons x before ih =>
    cases h with
    | source hk =>
      rw [resolve_of_inArray s (hbefore x (by simp)), ok_bind]
      exact ih (hk _) fun y hy => hbefore y (by simp [hy])

/-- Every instruction makes its tests in the order of R91. -/
theorem exec_tests (i : Instr) (s : State) :
    ∃ r, exec i s = finish s (checkDestination i >>= fun _ => r) ∧ ResolvesFirst s (sourceWords i) r := by
  cases i with
  | halt | noop => exact ⟨.ok _, rfl, .rest _⟩
  | unknown raw => exact ⟨.error _, rfl, .rest _⟩
  | ret =>
    rcases popStack_cases s with ⟨h, -⟩ | ⟨rest, v, h, -⟩
    · exact ⟨.ok _, exec_ret_of_empty h, .rest _⟩
    · exact ⟨.ok _, exec_ret_of_append h, .rest _⟩
  | pop | inp => exact ⟨_, rfl, .rest _⟩
  | set | push | jmp | jt | jf | not | rmem | call | out => exact ⟨_, rfl, .source fun _ => .rest _⟩
  | eq | gt | add | mult | mod | and | or | wmem =>
    exact ⟨_, rfl, .source fun _ => .source fun _ => .rest _⟩

/-- Settles O34: the destination check is the first test. -/
theorem badDestinationFaultsFirst : Obligations.BadDestinationFaultsFirst := by
  intro i s d hd hout
  obtain ⟨r, hexec, -⟩ := exec_tests i s
  refine ⟨_, ?_, rfl⟩
  rw [hexec, checkDestination_of_checkedDst hd, checkDst_of_not_inArray (Nat.not_lt.2 hout)]
  rfl

/-- Settles O35: once the destination passes, the sources are resolved in order; the conditional jumps
resolve their target after the test. -/
theorem invalidSourcesFaultLeftToRight : Obligations.InvalidSourcesFaultLeftToRight := by
  constructor
  · intro i s before after w hdst hsources hbefore hw
    obtain ⟨r, hexec, hr⟩ := exec_tests i s
    rw [hsources] at hr
    refine ⟨_, ?_, rfl⟩
    rw [hexec, checkDestination_of_ok hdst, hr.error_of_first_invalid hbefore hw]
    rfl
  · intro s test addr ht haddr
    rw [exec_jt_of_inArray s ht, exec_jf_of_inArray s ht, resolve_of_not_inArray s haddr]
    refine ⟨fun hz => ?_, fun hz => ?_⟩
    · rw [if_neg hz]
      exact ⟨_, rfl, rfl⟩
    · rw [if_pos hz]
      exact ⟨_, rfl, rfl⟩

end Sys2Proof.Machine
end

section
/-! SUPPORT. Everything an instruction can leave behind (stage 6, 40_step_protocol.md R87), said once; the
frames and the invariant follow from it case by case. -/

namespace Sys2Proof.Machine

/-- The states an instruction can leave: a fault, or one of the changes of a completed or suspended
instruction (20_memory.md R46). -/
inductive Effect (s : State) : Instr → State → Prop
  /-- Any instruction may end in a fault. -/
  | fault (i : Instr) (c : Cause) : Effect s i (s.setRunState (.error c))
  /-- One cell of the array is stored to. -/
  | store {i : Instr} {d : Nat} (v : Word) (hd : d < 32776) (ht : storeTarget i s = some d) :
    Effect s i ((s.setCell d v).advance i)
  /-- The pc alone moves. -/
  | goto (i : Instr) (p : Word) : Effect s i (s.setPc p)
  /-- `Push` and `Call`. -/
  | push {i : Instr} (v p : Word) (hi : usesStack i = true) :
    Effect s i { s with stack := s.stack ++ [v], pc := p }
  | pop {d v : Word} {rest : List Word} (hd : InArray d) :
    Effect s (.pop d) (({ s with stack := rest }.setCell d.toNat v).advance (.pop d))
  | ret {p : Word} {rest : List Word} : Effect s .ret { s with stack := rest, pc := p }
  /-- `In` with a character at the front of the queue. -/
  | take {d c : Word} {rest : List Word} (hd : InArray d) (hq : s.inq = c :: rest) :
    Effect s (.inp d) (({ s with inq := rest }.setCell d.toNat c).advance (.inp d))
  /-- `In` with an empty queue. -/
  | wait {d : Word} (hd : InArray d) (hq : s.inq = []) : Effect s (.inp d) (s.setRunState .inputNeeded)
  | print (w : Word) {v : Word} (hv : charConvertible v = true) :
    Effect s (.out w) ((s.appendOutput v).advance (.out w))
  | halt {i : Instr} (hi : i = .halt ∨ i = .ret ∧ s.stack = []) : Effect s i (s.setRunState .halt)

/-- Peeling one test off a meaning that completed. -/
theorem bind_ok {α β : Type} {x : Except Cause α} {f : α → Except Cause β} {b : β}
    (h : (x >>= f) = .ok b) : ∃ a, x = .ok a ∧ f a = .ok b := by
  cases x with
  | ok a => exact ⟨a, rfl, h⟩
  | error c => cases h

theorem inArray_of_checkDst {d : Word} {u : Unit} (h : checkDst d = .ok u) : InArray d := by
  by_contra hd
  rw [checkDst_of_not_inArray hd] at h
  cases h

theorem inArray_of_checkReg {d : Word} {u : Unit} (h : checkReg d = .ok u) : InArray d := by
  rcases checkReg_cases d with ⟨⟨-, hd⟩, -⟩ | ⟨-, herr⟩
  · exact hd
  · cases herr.symm.trans h

theorem memWrite_ok {s t : State} {a v : Word} (h : memWrite s a v = .ok t) :
    InArray a ∧ t = s.setCell a.toNat v := by
  rcases memWrite_cases s a v with ⟨ha, hok⟩ | ⟨-, herr⟩
  · exact ⟨ha, Except.ok.inj (h.symm.trans hok)⟩
  · cases herr.symm.trans h

theorem pushStack_ok {depth : Option Nat} {s t : State} {v : Word} (h : pushStack depth s v = .ok t) :
    t = { s with stack := s.stack ++ [v] } := by
  rcases pushStack_cases depth s v with ⟨-, hok⟩ | ⟨-, herr⟩
  · exact Except.ok.inj (h.symm.trans hok)
  · cases herr.symm.trans h

/-- A meaning that ends in `finish` has an effect as soon as its completed states are effects. -/
theorem finish_effect {i : Instr} {s : State} {r : Except Cause State} (h : ∀ t, r = .ok t → Effect s i t) :
    ∃ t, finish s r = .next t ∧ Effect s i t := by
  cases r with
  | ok t => exact ⟨t, rfl, h t rfl⟩
  | error c => exact ⟨_, rfl, .fault i c⟩

theorem binary_effect {i : Instr} {s : State} {dst : Word} (hi : storeTarget i s = some dst.toNat)
    (f : Word → Word → Except Cause Word) (a b : Word) :
    ∃ t, binary i f dst a b s = .next t ∧ Effect s i t :=
  finish_effect fun t h => by
    obtain ⟨_, hd, h⟩ := bind_ok h
    obtain ⟨va, -, h⟩ := bind_ok h
    obtain ⟨vb, -, h⟩ := bind_ok h
    obtain ⟨v, -, h⟩ := bind_ok h
    cases h
    exact .store v (inArray_of_checkDst hd) hi

/-- The taken path of a jump. -/
theorem resolve_setPc_effect {i : Instr} {s t : State} {addr : Word}
    (h : (resolve s addr >>= fun p => pure (s.setPc p)) = .ok t) : Effect s i t := by
  obtain ⟨p, -, h⟩ := bind_ok h
  cases h
  exact .goto i p

/-- Stage 6 always answers a next state, and it is an effect of the instruction. -/
theorem exec_effect (i : Instr) (s : State) : ∃ t, exec i s = .next t ∧ Effect s i t := by
  cases i with
  | halt => exact ⟨_, rfl, .halt (.inl rfl)⟩
  | noop => exact ⟨_, rfl, .goto _ _⟩
  | unknown raw => exact ⟨_, rfl, .fault _ _⟩
  | eq | gt | add | mult | mod | and | or => exact binary_effect rfl _ _ _
  | set dst val =>
    refine finish_effect fun t h => ?_
    obtain ⟨_, hd, h⟩ := bind_ok h
    obtain ⟨v, -, h⟩ := bind_ok h
    cases h
    exact .store v (inArray_of_checkReg hd) rfl
  | not dst val =>
    refine finish_effect fun t h => ?_
    obtain ⟨_, hd, h⟩ := bind_ok h
    obtain ⟨v, -, h⟩ := bind_ok h
    cases h
    exact .store _ (inArray_of_checkDst hd) rfl
  | rmem dst src =>
    refine finish_effect fun t h => ?_
    obtain ⟨_, hd, h⟩ := bind_ok h
    obtain ⟨e, -, h⟩ := bind_ok h
    obtain ⟨v, -, h⟩ := bind_ok h
    cases h
    exact .store v (inArray_of_checkDst hd) rfl
  | wmem dst val =>
    refine finish_effect fun t h => ?_
    obtain ⟨e, he, h⟩ := bind_ok h
    obtain ⟨v, -, h⟩ := bind_ok h
    obtain ⟨u, hu, h⟩ := bind_ok h
    obtain ⟨ha, rfl⟩ := memWrite_ok hu
    cases h
    exact .store v ha (by rw [storeTarget, he]; rfl)
  | push val =>
    refine finish_effect fun t h => ?_
    obtain ⟨v, -, h⟩ := bind_ok h
    obtain ⟨u, hu, h⟩ := bind_ok h
    obtain rfl := pushStack_ok hu
    cases h
    exact .push v _ rfl
  | call addr =>
    refine finish_effect fun t h => ?_
    obtain ⟨p, -, h⟩ := bind_ok h
    obtain ⟨u, hu, h⟩ := bind_ok h
    obtain rfl := pushStack_ok hu
    cases h
    exact .push _ p rfl
  | pop dst =>
    refine finish_effect fun t h => ?_
    obtain ⟨_, hd, h⟩ := bind_ok h
    rcases popStack_cases s with ⟨-, hpop⟩ | ⟨rest, v, -, hpop⟩
    · rw [hpop] at h
      cases h
    · rw [hpop] at h
      cases h
      exact .pop (inArray_of_checkDst hd)
  | ret =>
    rcases popStack_cases s with ⟨hs, -⟩ | ⟨rest, p, hs, -⟩
    · exact ⟨_, exec_ret_of_empty hs, .halt (.inr ⟨rfl, hs⟩)⟩
    · exact ⟨_, exec_ret_of_append hs, .ret⟩
  | jmp addr => exact finish_effect fun t h => resolve_setPc_effect h
  | jt test addr =>
    refine finish_effect fun t h => ?_
    obtain ⟨c, -, h⟩ := bind_ok h
    split at h
    · cases h
      exact .goto _ _
    · exact resolve_setPc_effect h
  | jf test addr =>
    refine finish_effect fun t h => ?_
    obtain ⟨c, -, h⟩ := bind_ok h
    split at h
    · exact resolve_setPc_effect h
    · cases h
      exact .goto _ _
  | out val =>
    refine finish_effect fun t h => ?_
    obtain ⟨v, -, h⟩ := bind_ok h
    split at h
    · cases h
      exact .print val (by assumption)
    · cases h
  | inp dst =>
    refine finish_effect fun t h => ?_
    obtain ⟨_, hd, h⟩ := bind_ok h
    rcases popInput_cases s with ⟨hq, hpop⟩ | ⟨c, rest, hq, hpop⟩
    · rw [hpop] at h
      cases h
      exact .wait (inArray_of_checkDst hd) hq
    · rw [hpop] at h
      cases h
      exact .take (inArray_of_checkDst hd) hq

theorem effect_of_exec {i : Instr} {s t : State} (h : exec i s = .next t) : Effect s i t := by
  obtain ⟨u, hu, heffect⟩ := exec_effect i s
  cases hu.symm.trans h
  exact heffect

/-! ### Run-states -/

/-- Entered in Continue, an instruction leaves Continue, Error, Halt or InputNeeded, each by its own effect. -/
theorem Effect.runState_cases {i : Instr} {s t : State} (h : Effect s i t) (hs : Running s) :
    t.runState = .cont ∨ (∃ c, t = s.setRunState (.error c)) ∨
      (t.runState = .inputNeeded ∧ t = s.setRunState .inputNeeded ∧
        ∃ d, i = .inp d ∧ InArray d ∧ s.inq = []) ∨
      (t.runState = .halt ∧ (i = .halt ∨ i = .ret ∧ s.stack = [])) := by
  cases h with
  | fault _ c => exact .inr (.inl ⟨c, rfl⟩)
  | wait hd hq => exact .inr (.inr (.inl ⟨rfl, rfl, _, rfl, hd, hq⟩))
  | halt hi => exact .inr (.inr (.inr ⟨rfl, hi⟩))
  | store | goto | push | pop | ret | take | print => exact .inl hs

/-- No instruction leaves BufferedOutput. -/
theorem Effect.runState_ne_bufferedOutput {i : Instr} {s t : State} (h : Effect s i t) (hs : Running s)
    (text : List Word) : t.runState ≠ .bufferedOutput text := by
  rcases h.runState_cases hs with hc | ⟨c, rfl⟩ | ⟨hc, -⟩ | ⟨hc, -⟩ <;> simp [*]

end Sys2Proof.Machine
end

section
/-! SUPPORT. Which stages a step goes through (40_step_protocol.md R81 to R87), and what it can answer. -/

namespace Sys2Proof.Machine

theorem beginStep_of_stopped {s : State}
    (h : s.runState = .halt ∨ (∃ c, s.runState = .error c) ∨ (s.runState = .inputNeeded ∧ s.inq = [])) :
    beginStep s = none := by
  rcases h with h | ⟨c, h⟩ | ⟨h, hq⟩
  · exact beginStep_of_halt h
  · exact beginStep_of_error h
  · exact beginStep_of_inputNeeded_of_empty h hq

theorem resume_of_cont {s : State} (h : Running s) : resume s = s := by
  rw [resume, State.setRunState, ← h]

theorem beginStep_of_goesOn {s : State}
    (h : s.runState = .cont ∨ (∃ x, s.runState = .bufferedOutput x) ∨
      (s.runState = .inputNeeded ∧ s.inq ≠ [])) :
    beginStep s = some (resume s) := by
  rcases h with h | ⟨x, h⟩ | ⟨h, hq⟩
  · rw [beginStep_of_cont h, resume_of_cont h]
  · exact beginStep_of_bufferedOutput h
  · exact beginStep_of_inputNeeded_of_nonempty h hq

/-- Stages 4 to 6 read the cells, the pc and the buffer, which the move to Continue keeps. -/
theorem step_of_decoded {s : State} {i : Instr} {n : Nat} (hb : beginStep s = some (resume s))
    (hdec : decodeAt s.mem s.pc = .ok (i, n)) : step s = drainOrExec i (resume s) :=
  (step_of_beginStep_some hb).trans (fetchAndRun_of_decoded (s := resume s) hdec)

theorem step_eq_exec {s : State} {i : Instr} {n : Nat} (hb : beginStep s = some (resume s))
    (hdec : decodeAt s.mem s.pc = .ok (i, n)) (hout : i.isOut = true ∨ s.outbuf = []) :
    step s = exec i (resume s) :=
  (step_of_decoded hb hdec).trans (drainOrExec_of_isOut_or_empty (s := resume s) hout)

/-- A step answers the state itself, a fault or a drain over the resumed state, or an effect of the decoded
instruction on it. -/
theorem step_next_cases {s t : State} (h : step s = .next t) :
    (beginStep s = none ∧ t = s) ∨
      (beginStep s = some (resume s) ∧
        ((∃ r, decodeAt s.mem s.pc = .error r ∧
            t = (resume s).setRunState (.error (.malformedInstruction s.pc))) ∨
          ∃ i n, decodeAt s.mem s.pc = .ok (i, n) ∧
            ((i.isOut = false ∧ s.outbuf ≠ [] ∧ t = drain (resume s)) ∨
              ((i.isOut = true ∨ s.outbuf = []) ∧ exec i (resume s) = .next t)))) := by
  rcases step_cases s with ⟨hb, hstep⟩ | ⟨hb, ⟨r, hdec, hstep⟩ | ⟨i, n, hdec, ⟨ho, hp, hstep⟩ | ⟨ho, hstep⟩⟩⟩
  · cases hstep.symm.trans h
    exact .inl ⟨hb, rfl⟩
  · cases hstep.symm.trans h
    exact .inr ⟨hb, .inl ⟨r, hdec, rfl⟩⟩
  · cases hstep.symm.trans h
    exact .inr ⟨hb, .inr ⟨i, n, hdec, .inl ⟨ho, hp, rfl⟩⟩⟩
  · exact .inr ⟨hb, .inr ⟨i, n, hdec, .inr ⟨ho, hstep.symm.trans h⟩⟩⟩

theorem step_answers (s : State) : ∃ t, step s = .next t := by
  rcases step_cases s with ⟨-, h⟩ | ⟨-, ⟨-, -, h⟩ | ⟨i, -, -, ⟨-, -, h⟩ | ⟨-, h⟩⟩⟩
  · exact ⟨_, h⟩
  · exact ⟨_, h⟩
  · exact ⟨_, h⟩
  · obtain ⟨t, ht, -⟩ := exec_effect i (resume s)
    exact ⟨t, h.trans ht⟩

theorem stepNext_of_step {s t : State} (h : step s = .next t) : stepNext s = t := by
  rw [stepNext, h]

theorem step_stepNext (s : State) : step s = .next (stepNext s) := by
  obtain ⟨t, ht⟩ := step_answers s
  rw [stepNext_of_step ht, ht]

end Sys2Proof.Machine
end

section
/-! SUPPORT. The proofs of the statements about every instruction and every step: outcomes, faults and
frames. -/

namespace Sys2Proof.Machine

/-- Settles O37: `finish` and `raise` answer next states, and no arm refuses. -/
theorem everyStepAnswersANextState : Obligations.EveryStepAnswersANextState :=
  ⟨fun i s => let ⟨t, ht, _⟩ := exec_effect i s; ⟨t, ht⟩, step_answers⟩

/-- An instruction that ends in Error has made no write. -/
theorem exec_error_faulted {i : Instr} {s t : State} {c : Cause} (hs : Running s) (h : exec i s = .next t)
    (hc : t.runState = .error c) : t = s.setRunState (.error c) := by
  rcases (effect_of_exec h).runState_cases hs with hr | ⟨c', rfl⟩ | ⟨hr, -⟩ | ⟨hr, -⟩
  · cases hr.symm.trans hc
  · cases hc
    rfl
  · cases hr.symm.trans hc
  · cases hr.symm.trans hc

/-- Settles O36: the first failing test raises its fault over the starting state; a step adds the decode
fault and the move to Continue that Error overwrites. -/
theorem faultsChangeOnlyTheRunState : Obligations.FaultsChangeOnlyTheRunState := by
  refine ⟨fun i s t c hs h hc => exec_error_faulted hs h hc, fun s t c hs h hc => ?_⟩
  rcases step_next_cases h with ⟨-, rfl⟩ | ⟨-, ⟨r, -, rfl⟩ | ⟨i, n, -, ⟨-, -, rfl⟩ | ⟨-, hexec⟩⟩⟩
  · exact absurd hc (hs c)
  · cases hc
    rfl
  · cases hc
  · exact exec_error_faulted (s := resume s) rfl hexec hc

/-- Settles O38: an effect stores to the target of its instruction or to no cell. -/
theorem onlyTheStoreTargetChanges : Obligations.OnlyTheStoreTargetChanges := by
  intro i s t h a ha
  have hother : ∀ (u : State) {d : Nat} (v : Word), storeTarget i s = some d →
      (u.setCell d v).cell a = u.cell a := fun u d v hd =>
    cell_setCell_other u v fun hda => ha (by rw [hd, hda])
  cases effect_of_exec h with
  | store v hd ht => exact hother s v ht
  | pop hd => exact hother _ _ rfl
  | take hd hq => exact hother _ _ rfl
  | fault | goto | push | ret | wait | print | halt => rfl

/-- Settles O39: the effects that touch STACK, INQ or OUTBUF belong to the instructions named. -/
theorem stackAndQueuesChangeOnlyByTheirOwn : Obligations.StackAndQueuesChangeOnlyByTheirOwn := by
  intro i s t h
  cases effect_of_exec h with
  | push v p hi =>
    exact ⟨fun hn => Bool.noConfusion (hn.symm.trans hi), fun _ => rfl, .inl rfl, fun _ => rfl, .inl rfl⟩
  | pop hd => exact ⟨Bool.noConfusion, fun _ => rfl, .inl rfl, fun _ => rfl, .inl rfl⟩
  | ret => exact ⟨Bool.noConfusion, fun _ => rfl, .inl rfl, fun _ => rfl, .inl rfl⟩
  | take hd hq => exact ⟨fun _ => rfl, Bool.noConfusion, .inr ⟨_, hq⟩, fun _ => rfl, .inl rfl⟩
  | print w hv => exact ⟨fun _ => rfl, fun _ => rfl, .inl rfl, Bool.noConfusion, .inr ⟨_, rfl⟩⟩
  | fault | store | goto | wait | halt =>
    exact ⟨fun _ => rfl, fun _ => rfl, .inl rfl, fun _ => rfl, .inl rfl⟩

/-- Settles O12: no output is pending, or the instruction is `Out`, which no drain precedes. -/
theorem stepRunsTheDecodedInstruction : Obligations.StepRunsTheDecodedInstruction := by
  intro s i n hdec hout
  refine ⟨fun h => ?_, fun x h => ?_, fun h hq => ?_⟩
  · rw [step_eq_exec (beginStep_of_goesOn (.inl h)) hdec hout, resume_of_cont h]
  · exact step_eq_exec (beginStep_of_goesOn (.inr (.inl ⟨x, h⟩))) hdec hout
  · exact step_eq_exec (beginStep_of_goesOn (.inr (.inr ⟨h, hq⟩))) hdec hout

/-- Settles O13: the rows are the branches of a step, and in the last ones the effects of the decoded
instruction. -/
theorem runStateTransitions : Obligations.RunStateTransitions := by
  intro s t h
  refine ⟨fun hstop => ?_, fun hgo => ⟨fun r hdec => ?_, fun i n hdec => ⟨fun hi hp => ?_, fun hout => ?_⟩⟩⟩
  · cases (step_of_beginStep_none (beginStep_of_stopped hstop)).symm.trans h
    rfl
  · have hstep : step s = raise (.malformedInstruction s.pc) (resume s) :=
      (step_of_beginStep_some (beginStep_of_goesOn hgo)).trans (fetchAndRun_of_reject (s := resume s) hdec)
    cases hstep.symm.trans h
    rfl
  · have hstep : step s = .next (drain (resume s)) :=
      (step_of_decoded (beginStep_of_goesOn hgo) hdec).trans (drainOrExec_of_pending (s := resume s) hi hp)
    cases hstep.symm.trans h
    rfl
  · have hexec : exec i (resume s) = .next t :=
      (step_eq_exec (beginStep_of_goesOn hgo) hdec hout).symm.trans h
    refine ⟨?_, ?_, fun hhalt hret hwait => ?_⟩
    · rintro (rfl | ⟨rfl, hs⟩)
      · cases hexec
        rfl
      · cases (exec_ret_of_empty (s := resume s) hs).symm.trans hexec
        rfl
    · rintro d rfl hd hq
      cases (exec_inp_of_empty (s := resume s) hd hq).symm.trans hexec
      rfl
    · rcases (effect_of_exec hexec).runState_cases rfl with hr | ⟨c, rfl⟩ | ⟨-, -, hi⟩ | ⟨-, hi⟩
      · exact .inl hr
      · exact .inr ⟨c, rfl⟩
      · exact absurd hi hwait
      · exact absurd hi (not_or.2 ⟨hhalt, hret⟩)

end Sys2Proof.Machine
end

section
/-! SUPPORT. Completed instructions read backwards, and the statements about the values they leave. -/

namespace Sys2Proof.Machine

theorem finish_of_cont {s t : State} {r : Except Cause State} (h : finish s r = .next t)
    (ht : t.runState = .cont) : r = .ok t := by
  rcases finish_cases h with hok | ⟨c, -, rfl⟩
  · exact hok
  · cases ht

theorem resolve_ok {s : State} {w v : Word} (h : resolve s w = .ok v) : InArray w ∧ v = s.valueOf w := by
  by_cases hw : InArray w
  · exact ⟨hw, Except.ok.inj (h.symm.trans (resolve_of_inArray s hw))⟩
  · cases (resolve_of_not_inArray s hw).symm.trans h

/-- A completed instruction of format DSS leaves what its unit answers in the destination cell. -/
theorem binary_cell_of_cont {i : Instr} {f : Word → Word → Except Cause Word} {dst a b : Word} {s t : State}
    (h : binary i f dst a b s = .next t) (ht : t.runState = .cont) :
    f (s.valueOf a) (s.valueOf b) = .ok (t.cell dst.toNat) := by
  obtain ⟨_, -, h⟩ := bind_ok (finish_of_cont h ht)
  obtain ⟨va, hva, h⟩ := bind_ok h
  obtain ⟨vb, hvb, h⟩ := bind_ok h
  obtain ⟨v, hv, hdone⟩ := bind_ok h
  obtain ⟨-, rfl⟩ := resolve_ok hva
  obtain ⟨-, rfl⟩ := resolve_ok hvb
  cases hdone
  rw [hv, advance_cell, cell_setCell_same]

theorem exec_not_cell_of_cont {dst val : Word} {s t : State} (h : exec (.not dst val) s = .next t)
    (ht : t.runState = .cont) : t.cell dst.toNat = aluNot (s.valueOf val) := by
  obtain ⟨_, -, h⟩ := bind_ok (finish_of_cont h ht)
  obtain ⟨v, hv, h⟩ := bind_ok h
  obtain ⟨-, rfl⟩ := resolve_ok hv
  cases h
  rw [advance_cell, cell_setCell_same]

theorem exec_wmem_cell_of_cont {dst val : Word} {s t : State} (h : exec (.wmem dst val) s = .next t)
    (ht : t.runState = .cont) :
    InArray (s.valueOf dst) ∧ t.cell (s.valueOf dst).toNat = s.valueOf val := by
  obtain ⟨e, he, h⟩ := bind_ok (finish_of_cont h ht)
  obtain ⟨v, hv, h⟩ := bind_ok h
  obtain ⟨u, hu, hdone⟩ := bind_ok h
  obtain ⟨-, rfl⟩ := resolve_ok he
  obtain ⟨-, rfl⟩ := resolve_ok hv
  obtain ⟨ha, rfl⟩ := memWrite_ok hu
  cases hdone
  exact ⟨ha, by rw [advance_cell, cell_setCell_same]⟩

theorem binary_lt_of_cont {i : Instr} {g : Word → Word → Word} {dst a b : Word} {s t : State}
    (hg : ∀ va vb, (g va vb).toNat < 32768) (h : binary i (fun va vb => .ok (g va vb)) dst a b s = .next t)
    (ht : t.runState = .cont) : (t.cell dst.toNat).toNat < 32768 := by
  rw [← Except.ok.inj (binary_cell_of_cont h ht)]
  exact hg _ _

/-- Settles O41: the comparator answers 1 or 0, the reduction stays below 32768, and a remainder is at
most the first operand. -/
theorem arithmeticResultsStayBelow32768 : Obligations.ArithmeticResultsStayBelow32768 := by
  intro s t dst a b _ ht
  constructor
  · intro i hi h
    have hcompare : ∀ {c : Word → Word → Bool} {j : Instr},
        binary j (fun va vb => .ok (boolWord (c va vb))) dst a b s = .next t →
          (t.cell dst.toNat).toNat < 32768 := fun h => binary_lt_of_cont (fun _ _ => boolWord_lt _) h ht
    have hreduce : ∀ {f : Word → Word → Nat} {j : Instr},
        binary j (fun va vb => .ok (reduce (f va vb))) dst a b s = .next t →
          (t.cell dst.toNat).toNat < 32768 := fun h => binary_lt_of_cont (fun _ _ => reduce_lt _) h ht
    simp only [List.mem_cons, List.not_mem_nil, or_false] at hi
    rcases hi with rfl | rfl | rfl | rfl | rfl | rfl | rfl
    · exact hcompare h
    · exact hcompare h
    · exact hreduce h
    · exact hreduce h
    · exact hreduce h
    · exact hreduce h
    · rw [exec_not_cell_of_cont h ht]
      exact reduce_lt _
  · intro h ha
    have hcell := binary_cell_of_cont h ht
    by_cases hz : s.valueOf b = 0
    · rw [hz, aluMod_of_zero] at hcell
      cases hcell
    · rw [aluMod_of_ne_zero _ hz] at hcell
      rw [← Except.ok.inj hcell, BitVec.toNat_umod]
      exact (Nat.mod_le _ _).trans_lt ha

/-- Settles O43: the window at the stored cell begins with the stored value, which is the opcode word of
whatever is decoded there. -/
theorem storeIsSeenByTheNextFetch : Obligations.StoreIsSeenByTheNextFetch := by
  rintro s t dst val p _ h ht rfl
  obtain ⟨he, hcell⟩ := exec_wmem_cell_of_cont h ht
  have hdec : decodeAt t.mem (s.valueOf dst) =
      decodeOpcode (s.valueOf val) (t.mem.window ((s.valueOf dst).toNat + 1) 3) := by
    rw [decodeAt_of_inArray _ he, ← hcell]
    rfl
  have hword : ∀ {i n}, decodeAt t.mem (s.valueOf dst) = .ok (i, n) → i.opcodeWord = s.valueOf val := by
    intro i n hi
    obtain ⟨-, rest, hws⟩ := decodeOpcode_ok (hdec.symm.trans hi)
    exact (List.cons.inj hws).1.symm
  exact ⟨fun raw n hi => hword hi, fun i n hi => hword hi,
    fun hv => hdec.trans (decodeOpcode_of_unknown hv _)⟩

/-! ### The canonical form -/

theorem read_of_mem {m : Memory} (h : m.Pairwise fun c d => c.1 < d.1) {c : MemCell} (hc : c ∈ m) :
    Memory.read m c.1 = c.2 := by
  induction m with
  | nil => cases hc
  | cons d m ih =>
    obtain ⟨hd, hm⟩ := List.pairwise_cons.1 h
    rcases List.mem_cons.1 hc with rfl | hc
    · exact if_pos rfl
    · rw [read_cons, if_neg (hd c hc).ne']
      exact ih hm hc

/-- In canonical form the listed cells are those that do not read 0, each with what it reads (log 1). -/
theorem mem_iff_read {m : Memory} (h : m.wf) (c : MemCell) : c ∈ m ↔ Memory.read m c.1 = c.2 ∧ c.2 ≠ 0 := by
  obtain ⟨hsorted, hcells⟩ := h
  refine ⟨fun hc => ⟨read_of_mem hsorted hc, (hcells c hc).2⟩, fun ⟨hread, hne⟩ => ?_⟩
  obtain ⟨d, hd, hdc⟩ : ∃ d ∈ m, d.1 = c.1 := by
    by_contra hnone
    exact hne (hread.symm.trans (read_eq_zero_of_unlisted fun d hd hdc => hnone ⟨d, hd, hdc⟩))
  have hval : d.2 = c.2 := by rw [← read_of_mem hsorted hd, hdc, hread]
  exact Prod.ext hdc hval ▸ hd

/-- Settles O44: the cells determine what is listed, and the rising order determines the list. -/
theorem canonicalMemoriesAreDeterminedByTheirCells : Obligations.CanonicalMemoriesAreDeterminedByTheirCells := by
  intro m m' h h' hread
  have hmem : ∀ c, c ∈ m ↔ c ∈ m' := fun c => by rw [mem_iff_read h, mem_iff_read h', hread]
  have : Std.Irrefl fun c d : MemCell => c.1 < d.1 := ⟨fun _ => Nat.lt_irrefl _⟩
  have : Std.Antisymm fun c d : MemCell => c.1 < d.1 := ⟨fun _ _ hcd hdc => absurd hcd hdc.not_gt⟩
  exact h.1.eq_of_mem_iff h'.1 hmem

end Sys2Proof.Machine
end

section
/-! SUPPORT. The invariant of 10_state.md R33: each part is kept by every effect, by the stages before
stage 6, and by the other host operations. -/

namespace Sys2Proof.Machine

/-- A state that neither delivers a text nor waits meets the first two parts. -/
theorem inv_of_neither {s : State} (htext : ∀ x, s.runState ≠ .bufferedOutput x)
    (hwait : s.runState ≠ .inputNeeded) (hchars : ∀ v ∈ s.outbuf, charConvertible v = true)
    (hmem : s.mem.wf) : Inv s where
  text x hx := absurd hx (htext x)
  waiting hw := absurd hw hwait
  chars := ⟨hchars, fun x hx => absurd hx (htext x)⟩
  memory := hmem

theorem Effect.memory_wf {i : Instr} {s t : State} (h : Effect s i t) (hs : s.mem.wf) : t.mem.wf := by
  cases h with
  | store v hd ht => exact write_wf hs hd v
  | pop hd => exact write_wf hs hd _
  | take hd hq => exact write_wf hs hd _
  | fault | goto | push | ret | wait | print | halt => exact hs

theorem Effect.outbuf_convertible {i : Instr} {s t : State} (h : Effect s i t)
    (hs : ∀ v ∈ s.outbuf, charConvertible v = true) : ∀ v ∈ t.outbuf, charConvertible v = true := by
  cases h with
  | print w hv => exact List.forall_mem_append.2 ⟨hs, List.forall_mem_singleton.2 hv⟩
  | fault | store | goto | push | pop | ret | take | wait | halt => exact hs

/-- Settles O46: at reset nothing is buffered, delivered or listed. -/
theorem resetMeetsTheInvariant : Obligations.ResetMeetsTheInvariant :=
  inv_of_neither (by simp [State.reset]) (by simp [State.reset]) (by simp [State.reset]) wf_nil

/-- Settles O47: the drain delivers a non-empty buffer whole; only `In` waits, at the cell it was decoded
from and with nothing buffered, since stage 5 let it pass. -/
theorem stepKeepsTheInvariant : Obligations.StepKeepsTheInvariant := by
  intro s t hinv h
  obtain ⟨hchars, -⟩ := hinv.chars
  have hmem : s.mem.wf := hinv.memory
  rcases step_next_cases h with ⟨-, rfl⟩ | ⟨-, ⟨r, -, rfl⟩ | ⟨i, n, hdec, ⟨-, hp, rfl⟩ | ⟨hout, hexec⟩⟩⟩
  · exact hinv
  · exact inv_of_neither (by simp) (by simp) hchars hmem
  · refine ⟨fun x hx => ?_, by simp [InvWaiting], ⟨by simp, fun x hx => ?_⟩, hmem⟩
    · cases hx
      exact ⟨hp, rfl⟩
    · cases hx
      exact hchars
  · have heffect := effect_of_exec hexec
    have htext := heffect.runState_ne_bufferedOutput rfl
    refine ⟨fun x hx => absurd hx (htext x), fun hw => ?_,
      ⟨heffect.outbuf_convertible hchars, fun x hx => absurd hx (htext x)⟩, heffect.memory_wf hmem⟩
    rcases heffect.runState_cases rfl with hr | ⟨c, rfl⟩ | ⟨-, rfl, d, rfl, hd, -⟩ | ⟨hr, -⟩
    · cases hr.symm.trans hw
    · cases hw
    · obtain ⟨rfl, -⟩ := decodeAt_ok hdec
      exact ⟨hout.resolve_left Bool.noConfusion, d, hdec, hd⟩
    · cases hr.symm.trans hw

/-- Settles O48: a construction lists cells of the array only, and the operations beside `Step` lengthen
the input queue or empty the buffer. -/
theorem reachableStatesMeetTheInvariant : Obligations.ReachableStatesMeetTheInvariant := by
  intro s h
  induction h with
  | construct h =>
    obtain ⟨hlen, rfl⟩ := construct_next h
    exact inv_of_neither (by simp [State.reset]) (by simp [State.reset]) (by simp [State.reset])
      (imageFrom_wf ((Nat.zero_add _).trans_le (hlen.trans (by decide))))
  | @apply op s t _ h ih =>
    obtain ⟨htext, hwait, ⟨hbuf, hdel⟩, hmem⟩ := ih
    cases op with
    | step => exact stepKeepsTheInvariant s t ⟨htext, hwait, ⟨hbuf, hdel⟩, hmem⟩ h
    | supplyInput codes =>
      obtain rfl := supplyInput_next h
      exact ⟨htext, hwait, ⟨hbuf, hdel⟩, hmem⟩
    | flushOutput =>
      cases h
      refine ⟨fun x hx => ?_, fun hw => ?_, ⟨by simp, hdel⟩, hmem⟩
      · obtain ⟨hne, -⟩ := htext x hx
        exact ⟨hne, rfl⟩
      · obtain ⟨-, hat⟩ := hwait hw
        exact ⟨rfl, hat⟩
    | readRegisters =>
      cases h
      exact ⟨htext, hwait, ⟨hbuf, hdel⟩, hmem⟩

end Sys2Proof.Machine
end

section
/-! SUPPORT. The order of the output (20_memory.md section 7): what one step adds to the buffer and hands
to the host, and the same for any number of steps. -/

namespace Sys2Proof.Machine

theorem deliveredText_of_ne {s : State} (h : ∀ x, s.runState ≠ .bufferedOutput x) : deliveredText s = [] := by
  unfold deliveredText
  split
  · exact absurd (by assumption) (h _)
  all_goals rfl

theorem emitted_of_beginStep_none {s : State} (h : beginStep s = none) : emitted s = [] := by
  rw [emitted, h]

theorem emitted_of_reject {s : State} {r : DecodeReject} (hb : beginStep s = some (resume s))
    (h : decodeAt s.mem s.pc = .error r) : emitted s = [] := by
  simp [emitted, hb, h]

theorem emitted_of_not_out {s : State} {i : Instr} {n : Nat} (hb : beginStep s = some (resume s))
    (h : decodeAt s.mem s.pc = .ok (i, n)) (hi : i.isOut = false) : emitted s = [] := by
  cases i with
  | out w => cases hi
  | _ => simp [emitted, hb, h]

theorem emitted_of_out {s : State} {w : Word} {n : Nat} (hb : beginStep s = some (resume s))
    (h : decodeAt s.mem s.pc = .ok (.out w, n)) :
    emitted s = if InArray w ∧ charConvertible (s.valueOf w) = true then [s.valueOf w] else [] := by
  have hval : (resume s).valueOf w = s.valueOf w := rfl
  simp [emitted, hb, h, hval]

/-- An `Out` that completes appends its character, and one that faults appends nothing (R150). -/
theorem exec_out_outbuf {s t : State} {w : Word} (h : exec (.out w) s = .next t) :
    t.outbuf = s.outbuf ++
      if InArray w ∧ charConvertible (s.valueOf w) = true then [s.valueOf w] else [] := by
  by_cases hw : InArray w
  · rw [exec_out_of_inArray s hw] at h
    by_cases hc : charConvertible (s.valueOf w) = true
    · rw [if_pos hc] at h
      cases h
      rw [if_pos ⟨hw, hc⟩]
      rfl
    · rw [if_neg hc] at h
      cases h
      rw [if_neg fun h => hc h.2, List.append_nil]
      rfl
  · cases (exec_out_of_not_inArray s hw).symm.trans h
    rw [if_neg fun h => hw h.1, List.append_nil]
    rfl

/-- One step loses, repeats and reorders no character. -/
theorem step_output (s : State) :
    s.outbuf ++ emitted s = deliveredText (stepNext s) ++ (stepNext s).outbuf := by
  rcases step_next_cases (step_stepNext s) with
    ⟨hb, ht⟩ | ⟨hb, ⟨r, hdec, ht⟩ | ⟨i, n, hdec, ⟨hi, -, ht⟩ | ⟨-, hexec⟩⟩⟩
  · have htext : ∀ x, s.runState ≠ .bufferedOutput x := by
      intro x hx
      rw [beginStep_of_bufferedOutput hx] at hb
      cases hb
    rw [ht, emitted_of_beginStep_none hb, deliveredText_of_ne htext, List.append_nil, List.nil_append]
  · rw [ht, emitted_of_reject hb hdec, List.append_nil]
    rfl
  · rw [ht, emitted_of_not_out hb hdec hi]
    rfl
  · rw [deliveredText_of_ne ((effect_of_exec hexec).runState_ne_bufferedOutput rfl), List.nil_append]
    cases hi : i.isOut with
    | false =>
      obtain ⟨-, -, -, hkeep, -⟩ := stackAndQueuesChangeOnlyByTheirOwn i _ _ hexec
      rw [emitted_of_not_out hb hdec hi, List.append_nil, hkeep hi, resume_outbuf]
    | true =>
      cases i with
      | out w => rw [emitted_of_out hb hdec, exec_out_outbuf hexec]; rfl
      | _ => cases hi

/-- Settles O49, by induction on the number of steps. -/
theorem outputIsDeliveredInOrder : Obligations.OutputIsDeliveredInOrder := by
  intro n
  induction n with
  | zero => intro s; simp [emittedBy, deliveredBy, stepsFrom]
  | succ n ih =>
    intro s
    calc s.outbuf ++ (emitted s ++ emittedBy n (stepNext s))
        = deliveredText (stepNext s) ++ ((stepNext s).outbuf ++ emittedBy n (stepNext s)) := by
          rw [← List.append_assoc, step_output, List.append_assoc]
      _ = deliveredText (stepNext s) ++ deliveredBy n (stepNext s) ++ (stepsFrom n (stepNext s)).outbuf := by
          rw [ih, List.append_assoc]

end Sys2Proof.Machine
end

section
/-! SUPPORT. The proofs of the statements about the host operations (70_reset_and_hazards.md section 1,
46_console_io.md section 4, 40_step_protocol.md section 4). -/

namespace Sys2Proof.Machine

/-! ### Construct -/

theorem construct_of_fits {program : List Word} (h : program.length ≤ 32768) :
    construct program = .next { State.reset with mem := imageFrom 0 program } := if_pos h

/-- Settles O45: the reset state is the construction of the empty program. -/
theorem resetValues : Obligations.ResetValues :=
  ⟨fun _ => rfl, fun _ => rfl, rfl, rfl, rfl, rfl, rfl, rfl⟩

/-- Settles O52: the image of the program is its words from cell 0 on, and 0 elsewhere. -/
theorem constructLoadsTheProgram : Obligations.ConstructLoadsTheProgram := by
  intro program
  refine ⟨fun h => ⟨_, construct_of_fits h, fun k => ?_, rfl, rfl, rfl, rfl, rfl⟩,
    fun h => if_neg (Nat.not_le.2 h)⟩
  simpa [State.cell] using read_imageFrom program 0 k

theorem wordsOfBytes_of_odd (bytes : List Byte) (h : bytes.length % 2 = 1) : wordsOfBytes bytes = none := by
  induction bytes using wordsOfBytes.induct with
  | case1 => cases h
  | case2 b => rfl
  | case3 lo hi rest ih =>
    have hrest : rest.length % 2 = 1 := by simp only [List.length_cons] at h; omega
    rw [wordsOfBytes, ih hrest]
    rfl

/-- An even number of bytes is read in pairs, low byte first (R203). -/
theorem wordsOfBytes_of_even (bytes : List Byte) (h : bytes.length % 2 = 0) :
    ∃ ws, wordsOfBytes bytes = some ws ∧ 2 * ws.length = bytes.length ∧
      ∀ i, i < ws.length →
        (ws.getD i 0).toNat = (bytes.getD (2 * i) 0).toNat + 256 * (bytes.getD (2 * i + 1) 0).toNat := by
  induction bytes using wordsOfBytes.induct with
  | case1 => exact ⟨[], rfl, rfl, fun i hi => absurd hi (Nat.not_lt_zero i)⟩
  | case2 b => cases h
  | case3 lo hi rest ih =>
    have hrest : rest.length % 2 = 0 := by simp only [List.length_cons] at h; omega
    obtain ⟨ws, hws, hlen, hget⟩ := ih hrest
    refine ⟨BitVec.ofNat 16 (lo.toNat + 256 * hi.toNat) :: ws, by rw [wordsOfBytes, hws]; rfl, ?_, ?_⟩
    · simp only [List.length_cons]
      omega
    · intro i hi'
      cases i with
      | zero =>
        have hfits : lo.toNat + 256 * hi.toNat < 2 ^ 16 := by omega
        exact Nat.mod_eq_of_lt hfits
      | succ i =>
        have hi'' : i < ws.length := by simpa using hi'
        simpa [Nat.mul_add] using hget i hi''

/-- Settles O53: the pairs of bytes are the words, and an odd byte is left over. -/
theorem programBytesAreLittleEndian : Obligations.ProgramBytesAreLittleEndian := by
  intro bytes
  refine ⟨fun h => ?_, fun h => ?_⟩
  · rw [constructBytes, wordsOfBytes_of_odd bytes h]
  · obtain ⟨ws, hws, hlen, hget⟩ := wordsOfBytes_of_even bytes h
    exact ⟨ws, by rw [constructBytes, hws], hlen, hget⟩

/-! ### Input and output -/

theorem supplyInput_of_le {codes : List Nat} (h : ∀ c ∈ codes, c ≤ 65535) (s : State) :
    supplyInput codes s = .next { s with inq := s.inq ++ codes.map (BitVec.ofNat 16) } := by
  have hfind : codes.find? (fun c => 65535 < c) = none :=
    List.find?_eq_none.2 fun c hc => by simpa using h c hc
  rw [supplyInput, hfind]

/-- Settles O55: the search for a code above 65535 decides, and a code up to it is kept by its word. -/
theorem supplyInputAppendsOrIsRefused : Obligations.SupplyInputAppendsOrIsRefused := by
  intro s codes
  constructor
  · intro h
    refine ⟨codes.map (BitVec.ofNat 16), ?_, supplyInput_of_le h s⟩
    rw [List.map_map]
    refine (List.map_congr_left fun c hc => ?_).trans (List.map_id codes)
    exact Nat.mod_eq_of_lt (Nat.lt_succ_of_le (h c hc))
  · rintro ⟨c, hc, hbig⟩
    have hsome : (codes.find? fun c => 65535 < c).isSome := by
      rw [List.find?_isSome]
      exact ⟨c, hc, by simpa using hbig⟩
    obtain ⟨d, hd⟩ := Option.isSome_iff_exists.1 hsome
    exact ⟨d, by simpa using List.find?_some hd, by rw [supplyInput, hd]⟩

/-- Settles O56: both operations read the state; the flush empties the buffer. -/
theorem flushAndReadRegisters : Obligations.FlushAndReadRegisters :=
  fun _ => ⟨rfl, rfl, rfl, rfl⟩

/-- Settles O50: the empty queue suspends, the wait and the supply keep the `In` where it is, and stage 2
resumes it. -/
theorem suspendedInResumesAndCompletes : Obligations.SuspendedInResumesAndCompletes := by
  intro s dst c cs hs hdec hd hb hq hcodes
  have hsuspend : step s = .next { s with runState := .inputNeeded } := by
    rw [step_eq_exec (beginStep_of_goesOn (.inl hs)) hdec (.inr hb), resume_of_cont hs]
    exact exec_inp_of_empty hd hq
  have hsupply := supplyInput_of_le hcodes { s with runState := .inputNeeded }
  obtain ⟨hwait, -, -⟩ := inputNeededWaitsForTheQueue { s with runState := .inputNeeded } rfl
  obtain ⟨-, -, hresume⟩ := inputNeededWaitsForTheQueue
    { s with runState := .inputNeeded, inq := s.inq ++ (c :: cs).map (BitVec.ofNat 16) } rfl
  obtain ⟨t, hstep, hstores, hpc, hstack, hinq, hout, hrun⟩ :=
    hresume dst (BitVec.ofNat 16 c) (cs.map (BitVec.ofNat 16)) hdec hd hb (by simp [hq])
  exact ⟨_, _, t, hsuspend, rfl, hwait hq, hsupply, rfl, hstep, hstores, hpc, hstack, hinq, hout, hrun⟩

/-! ### Run -/

theorem runWithin_succ (n : Nat) (s : State) :
    runWithin (n + 1) s =
      if (stepNext s).runState = .cont then runWithin n (stepNext s) else some (stepNext s) := by
  rw [runWithin, step_stepNext]

/-- The first `n` steps from `s` all leave Continue. -/
def StaysInCont (n : Nat) (s : State) : Prop := ∀ k, 1 ≤ k → k ≤ n → (stepsFrom k s).runState = .cont

theorem staysInCont_zero (s : State) : StaysInCont 0 s := fun _ h1 h0 => absurd (h1.trans h0) (by decide)

theorem staysInCont_succ (n : Nat) (s : State) :
    StaysInCont (n + 1) s ↔ (stepNext s).runState = .cont ∧ StaysInCont n (stepNext s) := by
  constructor
  · intro h
    exact ⟨h 1 le_rfl (Nat.le_add_left 1 n),
      fun k h1 hn => h (k + 1) (Nat.le_add_left 1 k) (Nat.succ_le_succ hn)⟩
  · rintro ⟨hfirst, hrest⟩ k h1 hn
    match k, h1 with
    | 1, _ => exact hfirst
    | k + 2, _ => exact hrest (k + 1) (Nat.le_add_left 1 k) (Nat.le_of_succ_le_succ hn)

theorem runWithin_eq_none_iff (n : Nat) (s : State) : runWithin n s = none ↔ StaysInCont n s := by
  induction n generalizing s with
  | zero => exact ⟨fun _ => staysInCont_zero s, fun _ => rfl⟩
  | succ n ih =>
    rw [runWithin_succ, staysInCont_succ]
    split
    · rename_i h
      rw [ih, and_iff_right h]
    · rename_i h
      simp [h]

theorem runWithin_eq_some_iff (n : Nat) (s t : State) :
    runWithin n s = some t ↔
      ∃ k < n, t = stepsFrom (k + 1) s ∧ t.runState ≠ .cont ∧ StaysInCont k s := by
  induction n generalizing s with
  | zero => simp [runWithin]
  | succ n ih =>
    rw [runWithin_succ]
    split
    · rename_i hcont
      rw [ih]
      constructor
      · rintro ⟨k, hk, ht, hne, hstay⟩
        exact ⟨k + 1, Nat.succ_lt_succ hk, ht, hne, (staysInCont_succ k s).2 ⟨hcont, hstay⟩⟩
      · rintro ⟨k, hk, ht, hne, hstay⟩
        cases k with
        | zero => exact absurd (ht ▸ hcont) hne
        | succ k => exact ⟨k, Nat.lt_of_succ_lt_succ hk, ht, hne, ((staysInCont_succ k s).1 hstay).2⟩
    · rename_i hcont
      constructor
      · intro h
        obtain rfl := Option.some.inj h
        exact ⟨0, Nat.succ_pos n, rfl, hcont, staysInCont_zero s⟩
      · rintro ⟨k, -, rfl, -, hstay⟩
        cases k with
        | zero => rfl
        | succ k => exact absurd ((staysInCont_succ k s).1 hstay).1 hcont

/-- Settles O54: a run within `n` steps returns at the first step out of Continue among them, and finds
none exactly when all `n` leave Continue. -/
theorem runStopsAtTheFirstStepOutOfContinue : Obligations.RunStopsAtTheFirstStepOutOfContinue := by
  intro s
  refine ⟨fun t => ⟨?_, ?_⟩, ⟨fun h k h1 => ?_, fun h n => ?_⟩⟩
  · rintro ⟨n, hn⟩
    obtain ⟨k, -, ht, hne, hstay⟩ := (runWithin_eq_some_iff n s t).1 hn
    exact ⟨k, ht, hne, hstay⟩
  · rintro ⟨k, ht, hne, hstay⟩
    exact ⟨k + 1, (runWithin_eq_some_iff (k + 1) s t).2 ⟨k, Nat.lt_succ_self k, ht, hne, hstay⟩⟩
  · exact (runWithin_eq_none_iff k s).1 (h k) k h1 le_rfl
  · exact (runWithin_eq_none_iff n s).2 fun k h1 _ => h k h1

end Sys2Proof.Machine
end
